-- ==== Sys2Proof/Word.lean ====
section
/-! DEFINITION. The words of B85BLK (00_scope.md R7, R14; 30_encoding.md R60 to R62) and the five-lane
record that the working registers DG[0..4], CHR[0..4] and the DATA field of a word are seen through. -/

namespace Sys2Proof

/-- One character code, one raw byte or one digit lane (R7 `CHARW`, R14). -/
abbrev Byte := BitVec 8

/-- The 32-bit value of a block (R7 `WORD`, R14). -/
abbrev Value := BitVec 32

/-- One digit register `DG[i]` (10_state.md R20: 7 bits). -/
abbrev Digit := BitVec 7

/-- The 40-bit `DATA` field of a command and of a response (R61, R62). -/
abbrev Data := BitVec 40

/-- A command word `CMD[47:0]` (R60, R61). -/
abbrev Command := BitVec 48

/-- A response word `RSP[63:0]` (R60, R62). -/
abbrev ResponseWord := BitVec 64

/-- Five like things numbered 0 to 4: lane 0 is the first element of a block (R12). -/
structure Five (α : Type) where
  l0 : α
  l1 : α
  l2 : α
  l3 : α
  l4 : α
  deriving DecidableEq, Repr, Inhabited

end Sys2Proof
end

