-- ==== Sys2Proof/Config.lean ====
section
/-! DEFINITION. What is fixed for the machine (00_scope.md R7: the constants of the block) and the free
values: what the spec leaves unspecified (10_state.md R33; 70_reset_and_hazards.md R191, R202), each a
constant with no body, so that nothing can be proved of its value. DESIGN CHOICE (log entries 3 and 4): what a free
value depends on is the argument list of its constant. -/

namespace Sys2Proof.Config

/-- `BASE`: the radix, the size of the alphabet (R7). -/
@[simp] abbrev base : Nat := 85

/-- `NDIG`: the digits (characters) of a full encoded block (R7). -/
@[simp] abbrev ndig : Nat := 5

/-- `NBYTE`: the raw bytes of a full block (R7). -/
@[simp] abbrev nbyte : Nat := 4

/-- `PAD`: the digit of the synthetic decode padding (R7). -/
@[simp] abbrev pad : Nat := 84

/-- `INVALID`: what the reverse table holds for a code that is not in the alphabet (R7). -/
@[simp] abbrev invalid : Byte := 0xFF#8

/-- FREE VALUE (log entry 4): how many rising edges after the accepting edge a command takes to complete. Finite
and otherwise unconstrained, and free to differ from command to command (R63, R202). DESIGN CHOICE: it is a function
of the number of the draw and of the command word, of nothing else. -/
opaque latency : Nat → Command → Nat

/-- FREE VALUE (log entry 3): `RSP` after a `rst` edge, unspecified (R33, R191). -/
opaque rstRsp : Nat → ResponseWord

/-- FREE VALUE (log entry 3): `NUM` after a `rst` edge, unspecified (R33, R191). -/
opaque rstNum : Nat → Value

/-- FREE VALUE (log entry 3): `DG[0..4]` after a `rst` edge, unspecified (R33, R191). -/
opaque rstDg : Nat → Five Digit

/-- FREE VALUE (log entry 3): `CHR[0..4]` after a `rst` edge, unspecified (R33, R191). -/
opaque rstChr : Nat → Five Byte

/-- FREE VALUE (log entry 3): `OPR` after a `rst` edge, unspecified (R33, R191). -/
opaque rstOpr : Nat → BitVec 4

/-- FREE VALUE (log entry 3): `LENR` after a `rst` edge, unspecified (R33, R191). -/
opaque rstLenr : Nat → BitVec 4

/-- FREE VALUE (log entry 3): `CNT` after a `rst` edge, unspecified (R33, R191). -/
opaque rstCnt : Nat → BitVec 3

end Sys2Proof.Config
end

