-- ==== Sys2Proof/Machine/Flags.lean ====
section
/-! DEFINITION. The one flag, `OVF` (10_state.md R29; 42_decoder.md R120): there is no flag register. -/

namespace Sys2Proof.Machine

/-- One accumulation of R120 on exact integers: `NUM * 85 + digit`. -/
def accumulate (num : Value) (d : Digit) : Nat := num.toNat * Config.base + d.toNat

/-- One accumulation sets `ovf` when its exact result is 2^32 or more (R120). -/
def accumulateOverflows (num : Value) (d : Digit) : Bool := 2 ^ 32 ≤ accumulate num d

end Sys2Proof.Machine
end

