-- ==== Sys2Proof/Syntax.lean ====
section
/-! DEFINITION. The commands of B85BLK command set 1 (30_encoding.md R72) and the ten reserved opcodes
(R73), one constructor per row of the opcode table. Every bit of a command word stands in some field,
the ignored ones (R71) too: a word and its instruction say the same. -/

namespace Sys2Proof

/-- One command. `len` is the field `LEN`; `junk` is an ignored part of `DATA` (R71). -/
inductive Instr where
  /-- `A2C`: index `DATA[7:0]`; `LEN` and `DATA[39:8]` ignored (R70, R90). -/
  | a2c (len : BitVec 4) (junk : BitVec 32) (idx : Byte)
  /-- `C2A`: character code `DATA[7:0]`; `LEN` and `DATA[39:8]` ignored (R70, R91). -/
  | c2a (len : BitVec 4) (junk : BitVec 32) (chr : Byte)
  /-- `ENCW`: value `DATA[31:0]`; `LEN` and `DATA[39:32]` ignored (R69, R105). -/
  | encw (len : BitVec 4) (junk : Byte) (val : Value)
  /-- `DECW`: five digit lanes; `LEN` ignored (R66, R69, R123). -/
  | decw (len : BitVec 4) (x : Five Byte)
  /-- `ENCB`: byte lanes `BY(0)` to `BY(3)`, of which the first `len` are operands; `DATA[39:32]`
  ignored (R65, R67, R106). -/
  | encb (len : BitVec 4) (junk b0 b1 b2 b3 : Byte)
  /-- `DECB`: character lanes `CH(0)` to `CH(4)`, of which the first `len` are operands
  (R64, R68, R124). -/
  | decb (len : BitVec 4) (c : Five Byte)
  /-- Reserved opcode 0x0 (R73). -/
  | illegal0 (len : BitVec 4) (data : Data)
  /-- Reserved opcode 0x7 (R73). -/
  | illegal7 (len : BitVec 4) (data : Data)
  /-- Reserved opcode 0x8 (R73). -/
  | illegal8 (len : BitVec 4) (data : Data)
  /-- Reserved opcode 0x9 (R73). -/
  | illegal9 (len : BitVec 4) (data : Data)
  /-- Reserved opcode 0xA (R73). -/
  | illegalA (len : BitVec 4) (data : Data)
  /-- Reserved opcode 0xB (R73). -/
  | illegalB (len : BitVec 4) (data : Data)
  /-- Reserved opcode 0xC (R73). -/
  | illegalC (len : BitVec 4) (data : Data)
  /-- Reserved opcode 0xD (R73). -/
  | illegalD (len : BitVec 4) (data : Data)
  /-- Reserved opcode 0xE (R73). -/
  | illegalE (len : BitVec 4) (data : Data)
  /-- Reserved opcode 0xF (R73). -/
  | illegalF (len : BitVec 4) (data : Data)
  deriving DecidableEq, Repr

end Sys2Proof
end

