-- ==== Sys2Proof/Decode.lean ====
section
/-! DEFINITION. Decoding a command word (30_encoding.md R61, R64 to R73, R76) and, after it, encoding an
instruction from the same tables. `decodeWord` is total on 48-bit words; `decodeBytes` is total on byte
strings and rejects by name a string that is not one word long (R60, R76). -/

namespace Sys2Proof

/-- The field `OP`, `CMD[47:44]` (R61). -/
def commandOp (w : Command) : BitVec 4 := w.extractLsb' 44 4

/-- The field `LEN`, `CMD[43:40]` (R61). -/
def commandLen (w : Command) : BitVec 4 := w.extractLsb' 40 4

/-- The field `DATA`, `CMD[39:0]` (R61). -/
def commandData (w : Command) : Data := w.extractLsb' 0 40

/-- The five character lanes of a `DATA` field: `CH(i) = DATA[39 - 8*i : 32 - 8*i]` (R64, R66). -/
def charLanes (d : Data) : Five Byte :=
  ⟨d.extractLsb' 32 8, d.extractLsb' 24 8, d.extractLsb' 16 8, d.extractLsb' 8 8, d.extractLsb' 0 8⟩

/-- The `DATA` field that holds these five character lanes (R64). -/
def packChars (c : Five Byte) : Data := c.l0 ++ c.l1 ++ c.l2 ++ c.l3 ++ c.l4

/-- The command word with these fields (R61). -/
def packCommand (op len : BitVec 4) (data : Data) : Command := op ++ len ++ data

/-- The instruction of a 48-bit command word: the operation is selected by `OP` alone (R72, R73); the
last arm is `OP = 0xF`, the one value left. -/
def decodeWord (w : Command) : Instr :=
  let len := commandLen w
  let data := commandData w
  let c := charLanes data
  match commandOp w with
  | 0x1#4 => .a2c len (data.extractLsb' 8 32) c.l4
  | 0x2#4 => .c2a len (data.extractLsb' 8 32) c.l4
  | 0x3#4 => .encw len c.l0 (data.extractLsb' 0 32)
  | 0x4#4 => .decw len c
  | 0x5#4 => .encb len c.l0 c.l1 c.l2 c.l3 c.l4
  | 0x6#4 => .decb len c
  | 0x0#4 => .illegal0 len data
  | 0x7#4 => .illegal7 len data
  | 0x8#4 => .illegal8 len data
  | 0x9#4 => .illegal9 len data
  | 0xA#4 => .illegalA len data
  | 0xB#4 => .illegalB len data
  | 0xC#4 => .illegalC len data
  | 0xD#4 => .illegalD len data
  | 0xE#4 => .illegalE len data
  | _ => .illegalF len data

/-- Why a byte string is no command. -/
inductive DecodeError where
  /-- Fewer than the six bytes of a command word (R60). -/
  | tooShort (bytes : Nat)
  /-- More than the six bytes of a command word (R60). -/
  | tooLong (bytes : Nat)
  deriving DecidableEq, Repr

/-- The instruction of a byte string: exactly six bytes, the most significant first, in the order of the
word's twelve hexadecimal digits (R61; the byte order is the model's, log entry 12). -/
def decodeBytes (bs : List Byte) : Except DecodeError Instr :=
  match bs with
  | [b0, b1, b2, b3, b4, b5] => .ok (decodeWord (b0 ++ b1 ++ b2 ++ b3 ++ b4 ++ b5))
  | _ => .error (if bs.length < 6 then .tooShort bs.length else .tooLong bs.length)

/-- The six bytes of a command word, the most significant first (log entry 12). -/
def commandBytes (w : Command) : List Byte :=
  [w.extractLsb' 40 8, w.extractLsb' 32 8, w.extractLsb' 24 8, w.extractLsb' 16 8, w.extractLsb' 8 8,
    w.extractLsb' 0 8]

/-- The command word of an instruction, from the tables of R61, R64 to R70, R72 and R73. -/
def encode : Instr → Command
  | .a2c len junk idx => packCommand 0x1#4 len (junk ++ idx)
  | .c2a len junk chr => packCommand 0x2#4 len (junk ++ chr)
  | .encw len junk val => packCommand 0x3#4 len (junk ++ val)
  | .decw len x => packCommand 0x4#4 len (packChars x)
  | .encb len junk b0 b1 b2 b3 => packCommand 0x5#4 len (junk ++ b0 ++ b1 ++ b2 ++ b3)
  | .decb len c => packCommand 0x6#4 len (packChars c)
  | .illegal0 len data => packCommand 0x0#4 len data
  | .illegal7 len data => packCommand 0x7#4 len data
  | .illegal8 len data => packCommand 0x8#4 len data
  | .illegal9 len data => packCommand 0x9#4 len data
  | .illegalA len data => packCommand 0xA#4 len data
  | .illegalB len data => packCommand 0xB#4 len data
  | .illegalC len data => packCommand 0xC#4 len data
  | .illegalD len data => packCommand 0xD#4 len data
  | .illegalE len data => packCommand 0xE#4 len data
  | .illegalF len data => packCommand 0xF#4 len data

/-- The bytes of an instruction's word. -/
def encodeBytes (i : Instr) : List Byte := commandBytes (encode i)

/-- The instruction this decoder reads from an opcode-table word of `nbits` bits; a command has 48 bits
(R60), those above `nbits` are 0, and a wider row is none of this machine's. -/
def decodeTableWord (nbits w : Nat) : Option Instr :=
  if 48 < nbits then none
  else (decodeBytes (commandBytes (BitVec.ofNat 48 (w % 2 ^ nbits)))).toOption

end Sys2Proof
end

