-- ==== Sys2Proof/Machine/Operands.lean ====
section
/-! DEFINITION. Lanes and operand forms (00_scope.md R12; 30_encoding.md R64 to R70; 20_memory.md R46,
R47): reading and building the `DATA` field, the big-endian value of a block of raw bytes, and the five
digits of a block of characters. -/

namespace Sys2Proof.Machine

/-- Lane `i` of five. -/
def laneGet {α : Type} (x : Five α) (i : Fin 5) : α :=
  match i with
  | 0 => x.l0
  | 1 => x.l1
  | 2 => x.l2
  | 3 => x.l3
  | 4 => x.l4

/-- `x[i] <- v`. -/
def laneSet {α : Type} (x : Five α) (i : Fin 5) (v : α) : Five α :=
  match i with
  | 0 => { x with l0 := v }
  | 1 => { x with l1 := v }
  | 2 => { x with l2 := v }
  | 3 => { x with l3 := v }
  | 4 => { x with l4 := v }

/-- The five lanes in order, lane 0 first (R12). -/
def laneList {α : Type} (x : Five α) : List α := [x.l0, x.l1, x.l2, x.l3, x.l4]

/-- Five lanes from a list, `z` where the list is too short. -/
def lanesOf {α : Type} (z : α) (l : List α) : Five α :=
  ⟨l.getD 0 z, l.getD 1 z, l.getD 2 z, l.getD 3 z, l.getD 4 z⟩

/-- A digit in its lane: the digit value, bit 7 zero (30_encoding.md R66). -/
def digitLane (d : Digit) : Byte := d.setWidth 8

/-- The `DATA` field with these characters in `CH(0)`, `CH(1)`, .. and every other lane 0 (R64; 00_scope.md
R12: lanes a rule does not write are zero). -/
def dataOfChars (cs : List Byte) : Data := packChars (lanesOf 0#8 cs)

/-- The `DATA` field with five digits in its lanes (R66). -/
def dataOfDigits (d : Five Digit) : Data :=
  packChars ⟨digitLane d.l0, digitLane d.l1, digitLane d.l2, digitLane d.l3, digitLane d.l4⟩

/-- The `DATA` field with these raw bytes in `BY(0)`, `BY(1)`, .. and every other bit 0 (R65). `BY(j)` is
`CH(j + 1)`. -/
def dataOfBytes (bs : List Byte) : Data := packChars (lanesOf 0#8 (0#8 :: bs))

/-- The raw byte lanes `BY(0)` to `BY(3)` of a `DATA` field: `BY(j) = DATA[31 - 8*j : 24 - 8*j]` (R65). -/
def byteLanes (d : Data) : List Byte :=
  [d.extractLsb' 24 8, d.extractLsb' 16 8, d.extractLsb' 8 8, d.extractLsb' 0 8]

/-- The loop of R106: from byte `j` on, `v <- v | (b[j] << (24 - 8*j))`. -/
def orBytes (j : Nat) (bs : List Byte) (v : Value) : Value :=
  match bs with
  | [] => v
  | b :: rest => orBytes (j + 1) rest (v ||| (b.setWidth 32 <<< (24 - 8 * j)))

/-- The 32-bit value of a block of raw bytes: big-endian, missing bytes are 0x00 in the low-order positions
(20_memory.md R46; 30_encoding.md R67; 41_encoder.md R106). -/
def bigEndian (bs : List Byte) : Value := orBytes 0 bs 0#32

/-- The four bytes of a value in big-endian order: byte `j` is `num[31 - 8*j : 24 - 8*j]` (20_memory.md R46;
42_decoder.md R124). -/
def valueBytes (v : Value) : List Byte :=
  [v.extractLsb' 24 8, v.extractLsb' 16 8, v.extractLsb' 8 8, v.extractLsb' 0 8]

/-- Five digits from at most five lane values, the digit 84 in the positions they do not reach (42_decoder.md
R124: the synthetic padding). A digit register has 7 bits. -/
def paddedDigits (xs : List Byte) : Five Digit :=
  lanesOf (BitVec.ofNat 7 Config.pad) (xs.map fun x => x.setWidth 7)

/-- The first lane value above 84 at or after position `i`, with its position (42_decoder.md R123). -/
def firstAboveDigit (i : Nat) (xs : List Byte) : Option (Nat × Byte) :=
  match xs with
  | [] => none
  | x :: rest => if 84 < x.toNat then some (i, x) else firstAboveDigit (i + 1) rest

end Sys2Proof.Machine
end

