-- ==== Sys2Proof/Machine/Response.lean ====
section
/-! DEFINITION. The response word (30_encoding.md R62; 60_exceptions.md R170, R178). -/

namespace Sys2Proof.Machine

/-- The statuses the block produces (R170). -/
inductive Status where
  | ok
  | invalidCharacter
  | malformedLength
  | contractViolation
  | illegalCommand
  deriving DecidableEq, Repr

/-- The code of a status, `RSP[63:60]` (R62, R170). -/
def statusCode : Status → BitVec 4
  | .ok => 0#4
  | .invalidCharacter => 1#4
  | .malformedLength => 2#4
  | .contractViolation => 3#4
  | .illegalCommand => 4#4

/-- The fields of a response (R62), the reserved bits 55:53 apart, which are always 0. -/
structure Response where
  status : BitVec 4
  len : BitVec 4
  ovf : Bool
  errpos : BitVec 4
  errchar : Byte
  data : Data
  deriving DecidableEq, Repr

/-- The response word of these fields (R62). -/
def packResponse (r : Response) : ResponseWord :=
  r.status ++ r.len ++ 0#3 ++ BitVec.ofBool r.ovf ++ r.errpos ++ r.errchar ++ r.data

/-- The field `STATUS`, `RSP[63:60]`. -/
def rspStatus (w : ResponseWord) : BitVec 4 := w.extractLsb' 60 4

/-- The field `LEN`, `RSP[59:56]`. -/
def rspLen (w : ResponseWord) : BitVec 4 := w.extractLsb' 56 4

/-- The reserved bits `RSP[55:53]`. -/
def rspReserved (w : ResponseWord) : BitVec 3 := w.extractLsb' 53 3

/-- The flag `OVF`, `RSP[52]`. -/
def rspOvf (w : ResponseWord) : Bool := w.getLsbD 52

/-- The field `ERRPOS`, `RSP[51:48]`. -/
def rspErrpos (w : ResponseWord) : BitVec 4 := w.extractLsb' 48 4

/-- The field `ERRCHAR`, `RSP[47:40]`. -/
def rspErrchar (w : ResponseWord) : Byte := w.extractLsb' 40 8

/-- The field `DATA`, `RSP[39:0]`. -/
def rspData (w : ResponseWord) : Data := w.extractLsb' 0 40

/-- The success response of R62: `STATUS = 0`, `ERRPOS = 0`, `ERRCHAR = 0` (00_scope.md R13 `respond OK`). -/
def okWord (len : BitVec 4) (data : Data) (ovf : Bool) : ResponseWord :=
  packResponse ⟨statusCode .ok, len, ovf, 0#4, 0#8, data⟩

/-- The error response of R178: everything zero but `STATUS`, `ERRPOS` and `ERRCHAR`. -/
def errorWord (st : Status) (pos : BitVec 4) (chr : Byte) : ResponseWord :=
  packResponse ⟨statusCode st, 0#4, false, pos, chr, 0#40⟩

/-- The characters of a response: its first `LEN` character lanes (R64, R106). -/
def rspChars (w : ResponseWord) : List Byte :=
  (laneList (charLanes (rspData w))).take (rspLen w).toNat

/-- The raw bytes of a response: its first `LEN` byte lanes (R65, R124). -/
def rspBytes (w : ResponseWord) : List Byte := (byteLanes (rspData w)).take (rspLen w).toNat

end Sys2Proof.Machine
end

