-- ==== Sys2Proof/Machine/State.lean ====
section
/-! DEFINITION. The state of the machine (10_state.md R20, R33): the block's tables, response register,
valid and busy bits and working registers, the coming values of its reset input, and the host that drives
its other inputs (30_encoding.md R63; 43_stream_host.md), all as plain data. -/

namespace Sys2Proof.Machine

/-- The two read-only address spaces (20_memory.md R40), each a list of (address, byte) cells in canonical
form: addresses strictly rising, no entry equal to what an unlisted address reads as, namely the constant
of R41 or R42 (Machine/Tables.lean; log entry 10). Nothing writes either space (R49). -/
structure Memory where
  /-- Listed cells of `FWD`, addresses 0 to 84. -/
  fwd : List Host.Cell
  /-- Listed cells of `REV`, addresses 0 to 255. -/
  rev : List Host.Cell
  deriving DecidableEq, Repr

/-- The input pins a host drives at one rising edge (30_encoding.md R63). -/
structure Drive where
  /-- `cmd_valid`. -/
  cmdValid : Bool
  /-- `cmd`, meaningful while `cmd_valid = 1`. -/
  cmd : Command
  /-- `rsp_ready`. -/
  rspReady : Bool
  deriving DecidableEq, Repr

/-- How a stream operation ended. -/
inductive HostResult where
  /-- The end of input was reached and the carry flushed (00_scope.md R18). -/
  | ok
  /-- `InvalidCharacter`: the character, the failing block's characters and the absolute position
  (43_stream_host.md R149). -/
  | invalidCharacter (chr : Byte) (block : List Byte) (pos : Nat)
  /-- `TruncatedInput`: one character was left over at the end of input, found by the host itself or told by the
  block's `MalformedLength` of a block of one character (R148). -/
  | truncatedInput
  /-- The host stopped on another status (70_reset_and_hazards.md R200; log entry 16). -/
  | stopped (status : BitVec 4)
  deriving DecidableEq, Repr

/-- Where a stream host stands. -/
inductive HostPhase where
  /-- It takes in its input. -/
  | reading
  /-- It holds a command on the command port until that is accepted. -/
  | presenting
  /-- Its command was accepted; it is ready to take the response. -/
  | awaiting
  /-- The operation is over, and the host idle from then on (log entry 22). -/
  | finished (result : HostResult)
  deriving DecidableEq, Repr

/-- The stream encoder (43_stream_host.md R140 to R144). -/
structure EncodeHost where
  /-- The chunks the read capability has still to give. -/
  chunks : List (List Byte)
  /-- What is left of the chunk in hand. -/
  chunk : List Byte
  /-- The byte carry `EC`; its length is `ECN` (R141). -/
  ec : List Byte
  /-- What was written to the output sink, in order. -/
  out : List Byte
  phase : HostPhase
  deriving DecidableEq, Repr

/-- The stream decoder (43_stream_host.md R145 to R151). -/
structure DecodeHost where
  /-- The chunks the read capability has still to give. -/
  chunks : List (List Byte)
  /-- What is left of the chunk in hand. -/
  chunk : List Byte
  /-- The character carry `DC`; its length is `DCN` (R146). -/
  dc : List Byte
  /-- `POS`: the non-whitespace characters consumed into completed blocks (R146). -/
  pos : Nat
  /-- What was written to the output sink, in order. -/
  out : List Byte
  phase : HostPhase
  deriving DecidableEq, Repr

/-- Whatever drives the command and response ports (00_scope.md R17). -/
inductive Driver where
  /-- An outside host: its pin values on the coming edges, `cmd_valid = 0` and `rsp_ready = 0` beyond the
  end of the list (log entry 17). -/
  | manual (script : List Drive)
  /-- The source's stream encoder. -/
  | encode (h : EncodeHost)
  /-- The source's stream decoder. -/
  | decode (h : DecodeHost)
  deriving DecidableEq, Repr

/-- The state of the machine. -/
structure State where
  /-- `FWD` and `REV` (10_state.md R21, R22). -/
  mem : Memory
  /-- `RSP`, the response register (R23). -/
  rsp : ResponseWord
  /-- `RSPV`: a response is pending (R23). -/
  rspv : Bool
  /-- `BUSY`: a command was accepted and has not completed (R23). -/
  busy : Bool
  /-- `NUM`, the working accumulator (R25). -/
  num : Value
  /-- `DG[0..4]`, the working digit registers (R25). -/
  dg : Five Digit
  /-- `CHR[0..4]`, the latched `DATA` lanes (R25). -/
  chr : Five Byte
  /-- `OPR`, the latched `OP` (R25). -/
  opr : BitVec 4
  /-- `LENR`, the latched `LEN` (R25). -/
  lenr : BitVec 4
  /-- `CNT`, the step counter of the iterative units (R25). -/
  cnt : BitVec 3
  /-- The model's own: rising edges the command in flight still takes (R202; log entry 4). -/
  wait : Nat
  /-- The model's own: how many times free values were drawn (log entries 3 and 4). -/
  draws : Nat
  /-- The input `rst` on the coming edges, 0 beyond the end of the list (R190; log entry 17). -/
  rstIn : List Bool
  /-- The host. -/
  driver : Driver
  deriving DecidableEq, Repr

/-- Why a step stops. No command stops the block (60_exceptions.md R180). -/
inductive Fault where
  /-- Raised by a read of a `FWD` cell that does not exist, address 85 or more (20_memory.md R40, R44).
  A2C checks its index first and ENCB's digits are at most 84, so no command raises it. Safe. -/
  | noForwardCell (address : Nat)
  deriving DecidableEq, Repr

/-- Why an instruction has no meaning here. -/
inductive Refusal where
  /-- Raised by `exec` for an instruction of the opcode table that has no meaning yet; none is left.
  Safe. -/
  | notModelled (mnemonic : String)
  deriving DecidableEq, Repr

/-- The machine right after reset (10_state.md R33): no response pending, no command in flight, the tables
at their constants. `RSP` and the working registers are unspecified there; their zeros are the model's
(log entries 1 and 2), as are the model's own fields and the idle host (log entries 4 and 17). -/
def State.reset : State where
  mem := ⟨[], []⟩
  rsp := 0#64
  rspv := false
  busy := false
  num := 0#32
  dg := ⟨0#7, 0#7, 0#7, 0#7, 0#7⟩
  chr := ⟨0#8, 0#8, 0#8, 0#8, 0#8⟩
  opr := 0#4
  lenr := 0#4
  cnt := 0#3
  wait := 0
  draws := 0
  rstIn := []
  driver := .manual []

end Sys2Proof.Machine
end

