-- ==== Sys2Proof/Machine/Tables.lean ====
section
/-! DEFINITION. The contents of the two constant tables (20_memory.md R41, R42), cell by cell as the spec
prints them. -/

namespace Sys2Proof.Machine

/-- The ten digits, `FWD[0..9]` (R41). -/
def forwardDigits : List Byte :=
  [0x30#8, 0x31#8, 0x32#8, 0x33#8, 0x34#8, 0x35#8, 0x36#8, 0x37#8, 0x38#8, 0x39#8]

/-- The capital letters, `FWD[10..35]` (R41). -/
def forwardCapitals : List Byte :=
  [0x41#8, 0x42#8, 0x43#8, 0x44#8, 0x45#8, 0x46#8, 0x47#8, 0x48#8, 0x49#8, 0x4A#8, 0x4B#8, 0x4C#8, 0x4D#8,
    0x4E#8, 0x4F#8, 0x50#8, 0x51#8, 0x52#8, 0x53#8, 0x54#8, 0x55#8, 0x56#8, 0x57#8, 0x58#8, 0x59#8, 0x5A#8]

/-- The small letters, `FWD[36..61]` (R41). -/
def forwardSmalls : List Byte :=
  [0x61#8, 0x62#8, 0x63#8, 0x64#8, 0x65#8, 0x66#8, 0x67#8, 0x68#8, 0x69#8, 0x6A#8, 0x6B#8, 0x6C#8, 0x6D#8,
    0x6E#8, 0x6F#8, 0x70#8, 0x71#8, 0x72#8, 0x73#8, 0x74#8, 0x75#8, 0x76#8, 0x77#8, 0x78#8, 0x79#8, 0x7A#8]

/-- The 23 punctuation marks, `FWD[62..84]` (R41; 90_conflicts.md C1: neither a space nor a backslash). -/
def forwardMarks : List Byte :=
  [0x21#8, 0x23#8, 0x24#8, 0x25#8, 0x26#8, 0x28#8, 0x29#8, 0x2A#8, 0x2B#8, 0x2D#8, 0x3B#8, 0x3C#8, 0x3D#8,
    0x3E#8, 0x3F#8, 0x40#8, 0x5E#8, 0x5F#8, 0x60#8, 0x7B#8, 0x7C#8, 0x7D#8, 0x7E#8]

/-- The contents of `FWD` (R41): 85 characters, no two alike, all printable (R43 (a), (e), (f)). -/
def forwardTable : List Byte := forwardDigits ++ forwardCapitals ++ forwardSmalls ++ forwardMarks

/-- Sixteen cells of `REV` with no digit (R42). -/
def reverseBlank : List Byte := List.replicate 16 Config.invalid

/-- `REV[0x20..0x2F]` (R42; 0xFF is the table's `--`). -/
def reverseRow2 : List Byte :=
  [0xFF#8, 62#8, 0xFF#8, 63#8, 64#8, 65#8, 66#8, 0xFF#8, 67#8, 68#8, 69#8, 70#8, 0xFF#8, 71#8, 0xFF#8, 0xFF#8]

/-- `REV[0x30..0x3F]` (R42). -/
def reverseRow3 : List Byte :=
  [0#8, 1#8, 2#8, 3#8, 4#8, 5#8, 6#8, 7#8, 8#8, 9#8, 0xFF#8, 72#8, 73#8, 74#8, 75#8, 76#8]

/-- `REV[0x40..0x4F]` (R42). -/
def reverseRow4 : List Byte :=
  [77#8, 10#8, 11#8, 12#8, 13#8, 14#8, 15#8, 16#8, 17#8, 18#8, 19#8, 20#8, 21#8, 22#8, 23#8, 24#8]

/-- `REV[0x50..0x5F]` (R42). -/
def reverseRow5 : List Byte :=
  [25#8, 26#8, 27#8, 28#8, 29#8, 30#8, 31#8, 32#8, 33#8, 34#8, 35#8, 0xFF#8, 0xFF#8, 0xFF#8, 78#8, 79#8]

/-- `REV[0x60..0x6F]` (R42). -/
def reverseRow6 : List Byte :=
  [80#8, 36#8, 37#8, 38#8, 39#8, 40#8, 41#8, 42#8, 43#8, 44#8, 45#8, 46#8, 47#8, 48#8, 49#8, 50#8]

/-- `REV[0x70..0x7F]` (R42). -/
def reverseRow7 : List Byte :=
  [51#8, 52#8, 53#8, 54#8, 55#8, 56#8, 57#8, 58#8, 59#8, 60#8, 61#8, 81#8, 82#8, 83#8, 84#8, 0xFF#8]

/-- `REV[0x80..0xFF]`: eight rows with no digit (R42). -/
def reverseHigh : List Byte := List.replicate 128 Config.invalid

/-- The contents of `REV` (R42): the inverse of `FWD` (R43 (b), (c), (d)). -/
def reverseTable : List Byte :=
  reverseBlank ++ reverseBlank ++ reverseRow2 ++ reverseRow3 ++ reverseRow4 ++ reverseRow5 ++ reverseRow6 ++
    reverseRow7 ++ reverseHigh

end Sys2Proof.Machine
end

