-- ==== Sys2Proof/Machine/Ops.lean ====
section
/-! DEFINITION. The named operations over the tables and the registers: table reads (20_memory.md R40 to
R44), completing a command with success or with an error (60_exceptions.md R178; 00_scope.md R13), and
the register transfers of the two iterative units (41_encoder.md R101; 42_decoder.md R120). -/

namespace Sys2Proof.Machine

/-- What a step or a meaning answers. -/
abbrev Out := Host.Outcome State Fault Refusal

/-! ## The tables -/

/-- The byte listed for an address. -/
def lookupCell (cells : List Host.Cell) (a : Nat) : Option Byte :=
  match cells with
  | [] => none
  | c :: rest => if c.1 = a then some c.2 else lookupCell rest a

/-- What an unlisted address of `FWD` reads as: R41's constant; addresses from 85 on do not exist (R40). -/
def fwdUnlisted (a : Nat) : Option Byte := forwardTable[a]?

/-- What an unlisted address of `REV` reads as: R42's constant; addresses from 256 on do not exist (R40). -/
def revUnlisted (a : Nat) : Option Byte := reverseTable[a]?

/-- `FWD[a]`, or nothing where no such cell exists (R40, R44). -/
def Memory.readFwd (m : Memory) (a : Nat) : Option Byte :=
  match fwdUnlisted a with
  | none => none
  | some b => some ((lookupCell m.fwd a).getD b)

/-- `REV[c]`: every 8-bit code has a cell (R40, R42). -/
def Memory.readRev (m : Memory) (c : Byte) : Byte :=
  (lookupCell m.rev c.toNat).getD ((revUnlisted c.toNat).getD Config.invalid)

/-- The canonical form of one space's cells: addresses strictly rising and above `low`, each an address
that exists, no entry equal to what the address reads as unlisted. -/
def cellsWf (unlisted : Nat → Option Byte) (low : Option Nat) (cells : List Host.Cell) : Bool :=
  match cells with
  | [] => true
  | c :: rest =>
    (match low with
      | none => true
      | some l => l < c.1) &&
    (match unlisted c.1 with
      | none => false
      | some b => b != c.2) &&
    cellsWf unlisted (some c.1) rest

/-- The memory is in canonical form. -/
def Memory.wf (m : Memory) : Bool := cellsWf fwdUnlisted none m.fwd && cellsWf revUnlisted none m.rev

/-- Neither table holds anything but its constants: what R21, R22 and R49 say of every state a run can
reach, since nothing writes either space. -/
def Memory.constant (m : Memory) : Bool := m.fwd.isEmpty && m.rev.isEmpty

/-- The characters of these digits, in order (41_encoder.md R106); the address that does not exist, if
there is one. -/
def Memory.forwardAll (m : Memory) (ds : List Digit) : Except Nat (List Byte) :=
  match ds with
  | [] => .ok []
  | d :: rest =>
    match m.readFwd d.toNat with
    | none => .error d.toNat
    | some c =>
      match m.forwardAll rest with
      | .error a => .error a
      | .ok cs => .ok (c :: cs)

/-- The digits of these characters in ascending position, the first of them at position `i`, or the
position and code of the first that is not in the alphabet (42_decoder.md R124; 60_exceptions.md R171). -/
def Memory.reverseAll (m : Memory) (i : Nat) (cs : List Byte) : Except (Nat × Byte) (List Byte) :=
  match cs with
  | [] => .ok []
  | c :: rest =>
    if m.readRev c = Config.invalid then .error (i, c)
    else
      match m.reverseAll (i + 1) rest with
      | .error e => .error e
      | .ok xs => .ok (m.readRev c :: xs)

/-! ## Completing a command -/

/-- Complete the command in flight with response word `w`: write the whole of `RSP`, set `RSPV`, clear
`BUSY` (10_state.md R23). -/
def State.complete (s : State) (w : ResponseWord) : State :=
  { s with rsp := w, rspv := true, busy := false, wait := 0 }

/-- `respond OK(len, data, ovf)` (00_scope.md R13). -/
def State.respondOk (s : State) (len : BitVec 4) (data : Data) (ovf : Bool) : Out :=
  .next (s.complete (okWord len data ovf))

/-- `raise S(pos, chr)`: taking an exception is completing with the error response of R178; no mode, mask
or stack exists and control goes nowhere. There is no return operation beside it (60_exceptions.md R180):
the host takes the response as any other. -/
def State.raise (s : State) (st : Status) (pos : BitVec 4) (chr : Byte) : Out :=
  .next (s.complete (errorWord st pos chr))

/-! ## The encoder's iteration -/

/-- One step of R101: the remainder is digit `i`, the quotient goes on; `CNT` counts the step. -/
def State.encStep (s : State) (i : Fin 5) : State :=
  { s with
    dg := laneSet s.dg i (BitVec.ofNat 7 (s.num.toNat % Config.base))
    num := BitVec.ofNat 32 (s.num.toNat / Config.base)
    cnt := s.cnt + 1#3 }

/-- `ENCDIG(v)` as register transfers (R101): five steps, digit 4 first; the digits are left in `DG`. -/
def State.encDigits (s : State) (v : Value) : State :=
  [4, 3, 2, 1, 0].foldl State.encStep { s with num := v, cnt := 0#3 }

/-! ## The decoder's iteration -/

/-- One step of R120 on the state and `ovf`. -/
def State.decStep (p : State × Bool) (i : Fin 5) : State × Bool :=
  ({ p.1 with
     num := BitVec.ofNat 32 (accumulate p.1.num (laneGet p.1.dg i))
     cnt := p.1.cnt + 1#3 },
   p.2 || accumulateOverflows p.1.num (laneGet p.1.dg i))

/-- `DECDIG(d)` as register transfers (R120): the digits go to `DG`, then five steps, the most significant
digit first; the value is left in `NUM` and `ovf` is returned beside the state. -/
def State.decDigits (s : State) (d : Five Digit) : State × Bool :=
  [0, 1, 2, 3, 4].foldl State.decStep ({ s with dg := d, num := 0#32, cnt := 0#3 }, false)

end Sys2Proof.Machine
end

