-- ==== Sys2Proof/Machine/Alphabet.lean ====
section
/-! DEFINITION. The commands of the alphabet_lookup_table unit: A2C and C2A (40_alphabet_lookup.md). -/

namespace Sys2Proof.Machine

/-- `A2C`: forward lookup (R90). `LEN` and `DATA[39:8]` are ignored. -/
def execA2c (_len : BitVec 4) (_junk : BitVec 32) (idx : Byte) (s : State) : Out :=
  if 84 < idx.toNat then s.raise .contractViolation 0#4 idx
  else
    match s.mem.readFwd idx.toNat with
    | none => .fault (.noForwardCell idx.toNat)
    | some c => s.respondOk 1#4 (c.setWidth 40) false

/-- `C2A`: reverse lookup (R91). `LEN` and `DATA[39:8]` are ignored. -/
def execC2a (_len : BitVec 4) (_junk : BitVec 32) (chr : Byte) (s : State) : Out :=
  if s.mem.readRev chr = Config.invalid then s.raise .invalidCharacter 0#4 chr
  else s.respondOk 1#4 ((s.mem.readRev chr).setWidth 40) false

end Sys2Proof.Machine
end

