-- ==== Sys2Proof/Machine/Decoder.lean ====
section
/-! DEFINITION. The commands of the base85_decoder unit: DECW and DECB (42_decoder.md). -/

namespace Sys2Proof.Machine

/-- `DECW`: five digits to a 32-bit value (R123). All five lanes are checked before any arithmetic. `LEN` is
ignored. -/
def execDecw (_len : BitVec 4) (x : Five Byte) (s : State) : Out :=
  match firstAboveDigit 0 (laneList x) with
  | some (i, v) => s.raise .contractViolation (BitVec.ofNat 4 i) v
  | none =>
    let p := s.decDigits (paddedDigits (laneList x))
    p.1.respondOk 4#4 (p.1.num.setWidth 40) p.2

/-- `DECB`: decode one block of `len` characters (R124). Character lanes at and beyond `len` are ignored; the
length is checked first (60_exceptions.md R177). -/
def execDecb (len : BitVec 4) (c : Five Byte) (s : State) : Out :=
  if len.toNat ≤ 1 ∨ 6 ≤ len.toNat then s.raise .malformedLength 0#4 0#8
  else
    match s.mem.reverseAll 0 ((laneList c).take len.toNat) with
    | .error (i, v) => s.raise .invalidCharacter (BitVec.ofNat 4 i) v
    | .ok xs =>
      let p := s.decDigits (paddedDigits xs)
      p.1.respondOk (len - 1#4) (dataOfBytes ((valueBytes p.1.num).take (len.toNat - 1))) p.2

end Sys2Proof.Machine
end

