-- ==== Sys2Proof/Machine/Encoder.lean ====
section
/-! DEFINITION. The commands of the base85_encoder unit: ENCW and ENCB (41_encoder.md). -/

namespace Sys2Proof.Machine

/-- `ENCW`: 32-bit value to five digits (R105). `LEN` and `DATA[39:32]` are ignored. -/
def execEncw (_len : BitVec 4) (_junk : Byte) (val : Value) (s : State) : Out :=
  (s.encDigits val).respondOk 5#4 (dataOfDigits (s.encDigits val).dg) false

/-- `ENCB`: encode one block of `len` raw bytes (R106). Byte lanes at and beyond `len` and `DATA[39:32]` are
ignored. -/
def execEncb (len : BitVec 4) (_junk b0 b1 b2 b3 : Byte) (s : State) : Out :=
  if len.toNat = 0 ∨ 5 ≤ len.toNat then s.raise .contractViolation 0#4 0#8
  else
    let t := s.encDigits (bigEndian ([b0, b1, b2, b3].take len.toNat))
    match t.mem.forwardAll ((laneList t.dg).take (len.toNat + 1)) with
    | .error a => .fault (.noForwardCell a)
    | .ok cs => t.respondOk (len + 1#4) (dataOfChars cs) false

end Sys2Proof.Machine
end

