-- ==== Sys2Proof/Machine/Illegal.lean ====
section
/-! DEFINITION. The ten reserved opcodes (30_encoding.md R73; 60_exceptions.md R174): each selects no
command and is answered with the status IllegalCommand. `LEN` and `DATA` are not examined. -/

namespace Sys2Proof.Machine

/-- The answer to a word that selects no command (R174). -/
def State.raiseIllegal (s : State) : Out := s.raise .illegalCommand 0#4 0#8

/-- `OP = 0x0` (R73). -/
def execIllegal0 (_len : BitVec 4) (_data : Data) (s : State) : Out := s.raiseIllegal

/-- `OP = 0x7` (R73). -/
def execIllegal7 (_len : BitVec 4) (_data : Data) (s : State) : Out := s.raiseIllegal

/-- `OP = 0x8` (R73). -/
def execIllegal8 (_len : BitVec 4) (_data : Data) (s : State) : Out := s.raiseIllegal

/-- `OP = 0x9` (R73). -/
def execIllegal9 (_len : BitVec 4) (_data : Data) (s : State) : Out := s.raiseIllegal

/-- `OP = 0xA` (R73). -/
def execIllegalA (_len : BitVec 4) (_data : Data) (s : State) : Out := s.raiseIllegal

/-- `OP = 0xB` (R73). -/
def execIllegalB (_len : BitVec 4) (_data : Data) (s : State) : Out := s.raiseIllegal

/-- `OP = 0xC` (R73). -/
def execIllegalC (_len : BitVec 4) (_data : Data) (s : State) : Out := s.raiseIllegal

/-- `OP = 0xD` (R73). -/
def execIllegalD (_len : BitVec 4) (_data : Data) (s : State) : Out := s.raiseIllegal

/-- `OP = 0xE` (R73). -/
def execIllegalE (_len : BitVec 4) (_data : Data) (s : State) : Out := s.raiseIllegal

/-- `OP = 0xF` (R73). -/
def execIllegalF (_len : BitVec 4) (_data : Data) (s : State) : Out := s.raiseIllegal

end Sys2Proof.Machine
end

