-- ==== Sys2Proof/Machine/Dispatch.lean ====
section
/-! DEFINITION. The meaning of every instruction, one arm per constructor. -/

namespace Sys2Proof.Machine

def exec (i : Instr) (s : State) : Host.Outcome State Fault Refusal :=
  match i with
  | .a2c len junk idx => Sys2Proof.Machine.execA2c len junk idx s
  | .c2a len junk chr => Sys2Proof.Machine.execC2a len junk chr s
  | .encw len junk val => Sys2Proof.Machine.execEncw len junk val s
  | .decw len x => Sys2Proof.Machine.execDecw len x s
  | .encb len junk b0 b1 b2 b3 => Sys2Proof.Machine.execEncb len junk b0 b1 b2 b3 s
  | .decb len c => Sys2Proof.Machine.execDecb len c s
  | .illegal0 len data => Sys2Proof.Machine.execIllegal0 len data s
  | .illegal7 len data => Sys2Proof.Machine.execIllegal7 len data s
  | .illegal8 len data => Sys2Proof.Machine.execIllegal8 len data s
  | .illegal9 len data => Sys2Proof.Machine.execIllegal9 len data s
  | .illegalA len data => Sys2Proof.Machine.execIllegalA len data s
  | .illegalB len data => Sys2Proof.Machine.execIllegalB len data s
  | .illegalC len data => Sys2Proof.Machine.execIllegalC len data s
  | .illegalD len data => Sys2Proof.Machine.execIllegalD len data s
  | .illegalE len data => Sys2Proof.Machine.execIllegalE len data s
  | .illegalF len data => Sys2Proof.Machine.execIllegalF len data s

end Sys2Proof.Machine
end

