-- ==== Sys2Proof/Machine/StreamHost.lean ====
section
/-! DEFINITION. The host at the ports (43_stream_host.md; 30_encoding.md R63): what it drives at a rising
edge, and how it moves on after what it saw there. The two stream hosts take in one byte of their input an
edge (log entry 14). -/

namespace Sys2Proof.Machine

/-- The pins of a host that presents nothing and takes nothing. -/
def idleDrive : Drive := ⟨false, 0#48, false⟩

/-- The six whitespace codes (43_stream_host.md R145). -/
def isWhitespace (b : Byte) : Bool :=
  b == 0x20#8 || b == 0x09#8 || b == 0x0A#8 || b == 0x0D#8 || b == 0x0B#8 || b == 0x0C#8

/-- `ENCB` of these raw bytes, every other bit of `DATA` 0 (30_encoding.md R77; 43_stream_host.md R142, R143). -/
def encbWord (bs : List Byte) : Command := packCommand 0x5#4 (BitVec.ofNat 4 bs.length) (dataOfBytes bs)

/-- `DECB` of these characters, every other bit of `DATA` 0 (30_encoding.md R77; 43_stream_host.md R147). -/
def decbWord (cs : List Byte) : Command := packCommand 0x6#4 (BitVec.ofNat 4 cs.length) (dataOfChars cs)

/-- What a host does with its port in each phase: hold its command until it is accepted (R197), then be ready
for the response. DESIGN CHOICE (log entry 23): it raises `cmd_valid` without looking at `cmd_ready` (R195), so also at an
edge with `rst = 1`, where the word has no effect. -/
def drivePhase (phase : HostPhase) (cmd : Command) : Drive :=
  match phase with
  | .reading => idleDrive
  | .presenting => ⟨true, cmd, false⟩
  | .awaiting => ⟨false, 0#48, true⟩
  | .finished _ => idleDrive

/-- The pins the host drives at the coming edge. -/
def driverPins (d : Driver) : Drive :=
  match d with
  | .manual script => script.headD idleDrive
  | .encode h => drivePhase h.phase (encbWord h.ec)
  | .decode h => drivePhase h.phase (decbWord h.dc)

/-- The encoder takes in its input: a byte joins the carry, and a carry of 4 is presented (R142); the next
chunk is read when one is used up; at the end of input a carry of 1 to 3 is presented as a final short block
(R143). -/
def encodeRead (h : EncodeHost) : EncodeHost :=
  match h.chunk, h.chunks with
  | b :: rest, _ =>
    { h with
      chunk := rest
      ec := h.ec ++ [b]
      phase := if h.ec.length + 1 = Config.nbyte then .presenting else .reading }
  | [], c :: cs => { h with chunk := c, chunks := cs }
  | [], [] => { h with phase := if h.ec.isEmpty then .finished .ok else .presenting }

/-- The encoder takes the response of its command: it writes the characters and empties the carry (R142,
R143), or stops on a status that is not `OK` (R200; log entry 16). -/
def encodeTake (h : EncodeHost) (w : ResponseWord) : EncodeHost :=
  if rspStatus w = statusCode .ok then { h with out := h.out ++ rspChars w, ec := [], phase := .reading }
  else { h with phase := .finished (.stopped (rspStatus w)) }

/-- The decoder takes in its input: whitespace is skipped (R145), any other byte joins the carry, and a carry
of 5 is presented (R147). At the end of input an empty carry ends the operation, a carry of 1 is
`TruncatedInput` without a command (R148), a longer one is presented (R147). -/
def decodeRead (h : DecodeHost) : DecodeHost :=
  match h.chunk, h.chunks with
  | b :: rest, _ =>
    if isWhitespace b then { h with chunk := rest }
    else
      { h with
        chunk := rest
        dc := h.dc ++ [b]
        phase := if h.dc.length + 1 = Config.ndig then .presenting else .reading }
  | [], c :: cs => { h with chunk := c, chunks := cs }
  | [], [] =>
    { h with
      phase :=
        if h.dc.isEmpty then .finished .ok
        else if h.dc.length = 1 then .finished .truncatedInput else .presenting }

/-- How a decode operation ends on a response that is not `OK`: for block `block`, whose first character is
the stream's non-whitespace character number `pos`: `InvalidCharacter` with its position (R149); `MalformedLength`
of a block of one character is `TruncatedInput`, the second of the two routes of R148; any other status stops the
operation (R200; log entry 16). -/
def decodeFailure (pos : Nat) (block : List Byte) (w : ResponseWord) : HostResult :=
  if rspStatus w = statusCode .invalidCharacter then
    .invalidCharacter (rspErrchar w) block (pos + (rspErrpos w).toNat)
  else if rspStatus w = statusCode .malformedLength ∧ block.length = 1 then .truncatedInput
  else .stopped (rspStatus w)

/-- The decoder takes the response of its command: it writes the bytes, counts a full block and empties the
carry (R147), or stops (R148, R149); `OVF` is ignored (R151). -/
def decodeTake (h : DecodeHost) (w : ResponseWord) : DecodeHost :=
  if rspStatus w = statusCode .ok then
    { h with
      out := h.out ++ rspBytes w
      pos := if h.dc.length = Config.ndig then h.pos + Config.ndig else h.pos
      dc := []
      phase := .reading }
  else { h with phase := .finished (decodeFailure h.pos h.dc w) }

/-- The encoder after an edge at which `rst` was `rst`, its command was accepted or not, and `taken` is the
response it took, if any. A command lost to `rst` is presented again (R192; log entry 15). DESIGN CHOICE (log entry 22): a host whose operation
is over stays so; a new operation (60_exceptions.md R181) begins where another host is placed in the state. -/
def encodeMove (rst accepted : Bool) (taken : Option ResponseWord) (h : EncodeHost) : EncodeHost :=
  match h.phase with
  | .reading => encodeRead h
  | .presenting => if accepted then { h with phase := .awaiting } else h
  | .awaiting =>
    if rst then { h with phase := .presenting }
    else
      match taken with
      | none => h
      | some w => encodeTake h w
  | .finished _ => h

/-- The decoder after an edge, as `encodeMove` (log entries 15 and 22). -/
def decodeMove (rst accepted : Bool) (taken : Option ResponseWord) (h : DecodeHost) : DecodeHost :=
  match h.phase with
  | .reading => decodeRead h
  | .presenting => if accepted then { h with phase := .awaiting } else h
  | .awaiting =>
    if rst then { h with phase := .presenting }
    else
      match taken with
      | none => h
      | some w => decodeTake h w
  | .finished _ => h

/-- The host after an edge: the same host, however its operation stands (log entry 22). -/
def driverMove (rst accepted : Bool) (taken : Option ResponseWord) (d : Driver) : Driver :=
  match d with
  | .manual script => .manual script.tail
  | .encode h => .encode (encodeMove rst accepted taken h)
  | .decode h => .decode (decodeMove rst accepted taken h)

/-- A stream encoder at the start of its operation: an empty carry (R141, R194). -/
def encodeStart (chunks : List (List Byte)) : EncodeHost := ⟨chunks, [], [], [], .reading⟩

/-- A stream decoder at the start of its operation: an empty carry, `POS = 0` (R146, R194). -/
def decodeStart (chunks : List (List Byte)) : DecodeHost := ⟨chunks, [], [], 0, [], .reading⟩

end Sys2Proof.Machine
end

