-- ==== Sys2Proof/Machine/Edge.lean ====
section
/-! DEFINITION. One rising edge of `clk` (30_encoding.md R63; 10_state.md R23; 70_reset_and_hazards.md R190
to R197): the output pins, the events accept, complete, take and reset of the block, and the edge itself,
the block and the host together. -/

namespace Sys2Proof.Machine

/-- The value of `rst` at the coming edge (R190). -/
def State.rst (s : State) : Bool := s.rstIn.headD false

/-- `cmd_ready`: not `BUSY` and not `RSPV` and not `rst` (R63). -/
def State.cmdReady (s : State) : Bool := !s.busy && !s.rspv && !s.rst

/-- `rsp_valid`: `RSPV` (R63), and 0 while `rst` is 1 (R190; log entry 7). -/
def State.rspValid (s : State) : Bool := s.rspv && !s.rst

/-- `rsp`: `RSP` while `rsp_valid = 1`, and nothing a reader could use while `rsp_valid = 0` (R63). -/
def State.rspPort (s : State) : Option ResponseWord := if s.rspValid then some s.rsp else none

/-- A command is accepted at an edge with `cmd_valid = 1` and `cmd_ready = 1` (R63). -/
def State.accepts (s : State) : Bool := (driverPins s.driver).cmdValid && s.cmdReady

/-- A response is taken at an edge with `rsp_valid = 1` and `rsp_ready = 1` (R63). -/
def State.takes (s : State) : Bool := s.rspValid && (driverPins s.driver).rspReady

/-- The response the host takes at the coming edge, if it takes one. -/
def State.takenWord (s : State) : Option ResponseWord := if s.takes then some s.rsp else none

/-- Latch a command word into `OPR`, `LENR` and `CHR[0..4]` (10_state.md R23, R25). -/
def State.latch (s : State) (w : Command) : State :=
  { s with opr := commandOp w, lenr := commandLen w, chr := charLanes (commandData w) }

/-- The command word the latches hold. -/
def State.latched (s : State) : Command := packCommand s.opr s.lenr (packChars s.chr)

/-- Accept a command: set `BUSY` and latch it (R23); how long it takes is drawn for it (R202). DESIGN CHOICE: the
draw looks at the number of draws before it and at the word (log entry 4). -/
def State.accept (s : State) (w : Command) : State :=
  { s.latch w with busy := true, wait := Config.latency s.draws w, draws := s.draws + 1 }

/-- The host takes the response: `RSPV` is cleared, `RSP` stays (R23). -/
def State.take (s : State) : State := { s with rspv := false }

/-- The reset state of R191: no response pending, no command in flight; `RSP` and every working register
unspecified (free values, log entry 3); the tables are constants and stay. -/
def State.resetEdge (s : State) : State :=
  { s with
    rsp := Config.rstRsp s.draws
    rspv := false
    busy := false
    num := Config.rstNum s.draws
    dg := Config.rstDg s.draws
    chr := Config.rstChr s.draws
    opr := Config.rstOpr s.draws
    lenr := Config.rstLenr s.draws
    cnt := Config.rstCnt s.draws
    wait := 0
    draws := s.draws + 1 }

/-- Complete the command in flight: run the instruction the latches hold (R23). -/
def State.runLatched (s : State) : Out := exec (decodeWord s.latched) s

/-- The block with a command in flight: it completes when no further edge is due, else it goes on (R63,
R202). -/
def State.goOn (s : State) : Out :=
  if s.wait ≤ 1 then s.runLatched else .next { s with wait := s.wait - 1 }

/-- The block at a rising edge. It completes a command at the accepting edge when that command takes no
further edge (R63: "possibly zero additional cycles after the accepting edge"). -/
def State.blockEdge (s : State) : Out :=
  if s.rst then .next s.resetEdge
  else if s.busy then s.goOn
  else if s.takes then .next s.take
  else if s.accepts then
    let t := s.accept (driverPins s.driver).cmd
    if t.wait = 0 then t.runLatched else .next t
  else .next s

/-- The outside at a rising edge, after the block, which was in state `s` before it, came to state `t`: the
sample of `rst` is used up and the host moves on. -/
def State.outsideEdge (s t : State) : State :=
  { t with rstIn := s.rstIn.tail, driver := driverMove s.rst s.accepts s.takenWord s.driver }

/-- One rising edge of `clk`. -/
def State.edge (s : State) : Out :=
  match s.blockEdge with
  | .next t => .next (s.outsideEdge t)
  | .fault r => .fault r
  | .refused r => .refused r

/-- The state right after the acceptance of command word `w`, with no further edge due and `rst` 0 from
then on: the very next edge completes that command (log entry 6). -/
def State.placeCommand (s : State) (w : Command) : State :=
  { s.latch w with busy := true, rspv := false, wait := 0, rstIn := [] }

end Sys2Proof.Machine
end

