-- ==== Sys2Proof/Machine/Step.lean ====
section
/-! DEFINITION. One step of the machine: one rising edge of `clk` (log entry 5). -/

namespace Sys2Proof.Machine

/-- One step. -/
def step (s : State) : Host.Outcome State Fault Refusal := s.edge

/-- `s` with the opcode-table word `w` of `nbits` bits as the command in flight, the one the next step runs:
nothing is fetched from a memory, a command comes over the command port (10_state.md R28; log entry 6). -/
def State.withFetchWord (s : State) (nbits w : Nat) : State :=
  s.placeCommand (BitVec.ofNat 48 (w % 2 ^ nbits))

end Sys2Proof.Machine
end

