-- ==== Sys2Proof/Machine/Stream.lean ====
section
/-! DEFINITION. The results of the stream procedures as functions (43_stream_host.md R142 to R151), over
the block's response to a command word. The host of Machine/StreamHost.lean reaches the same results edge by
edge. -/

namespace Sys2Proof.Machine

/-- The response of the block to a command word: a function of the word alone (10_state.md R32). -/
def answer (w : Command) : ResponseWord :=
  match exec (decodeWord w) State.reset with
  | .next t => t.rsp
  | .fault _ => 0#64
  | .refused _ => 0#64

/-! ## Encode -/

/-- Cut bytes into full groups of four and what is left over (R142 steps 2 and 3). -/
def groupsOfFour (bs : List Byte) : List (List Byte) × List Byte :=
  match bs with
  | b0 :: b1 :: b2 :: b3 :: rest => ([b0, b1, b2, b3] :: (groupsOfFour rest).1, (groupsOfFour rest).2)
  | short => ([], short)

/-- The blocks encoded for one incoming chunk and the carry after it, by the three steps of R142. -/
def encodeChunk (carry chunk : List Byte) : List (List Byte) × List Byte :=
  if carry.isEmpty then groupsOfFour chunk
  else
    let topped := carry ++ chunk.take (4 - carry.length)
    if topped.length = 4 then
      let r := groupsOfFour (chunk.drop (4 - carry.length))
      (topped :: r.1, r.2)
    else ([], topped)

/-- The same byte by byte (R142, the equivalent statement): each byte joins the carry, and a carry of four is
encoded. -/
def encodeByByte (carry chunk : List Byte) : List (List Byte) × List Byte :=
  match chunk with
  | [] => ([], carry)
  | b :: rest =>
    if carry.length + 1 = 4 then
      let r := encodeByByte [] rest
      ((carry ++ [b]) :: r.1, r.2)
    else encodeByByte (carry ++ [b]) rest

/-- The blocks encoded for all chunks, from a carry; a carry of 1 to 3 left at the end of input is the final
short block (R143). -/
def encodeChunks (carry : List Byte) (chunks : List (List Byte)) : List (List Byte) :=
  match chunks with
  | [] => if carry.isEmpty then [] else [carry]
  | c :: cs =>
    let r := encodeChunk carry c
    r.1 ++ encodeChunks r.2 cs

/-- The blocks of a whole input: its groups of four and the final short one (R144). -/
def encodeBlocks (bs : List Byte) : List (List Byte) :=
  (groupsOfFour bs).1 ++ (if (groupsOfFour bs).2.isEmpty then [] else [(groupsOfFour bs).2])

/-- The characters the block gives for one block of raw bytes (R106, R142: `CH(0)`.. in lane order). -/
def encodeBlock (bs : List Byte) : List Byte := rspChars (answer (encbWord bs))

/-- The text of a stream encode, chunk by chunk (R142, R143). -/
def encodeStream (chunks : List (List Byte)) : List Byte := (encodeChunks [] chunks).flatMap encodeBlock

/-- The text of an input, whatever its chunks (R144). -/
def encodeText (bs : List Byte) : List Byte := (encodeBlocks bs).flatMap encodeBlock

/-! ## Decode -/

/-- What a stream decode wrote and how it ended. -/
structure DecodeOutcome where
  out : List Byte
  result : HostResult
  deriving DecidableEq, Repr

/-- The outcome of one block at stream position `pos`, the outcome of the rest of the stream given
(R147, R149, R150: nothing is written for a failing block, and nothing after it). -/
def decodeBlock (pos : Nat) (block : List Byte) (rest : DecodeOutcome) : DecodeOutcome :=
  if rspStatus (answer (decbWord block)) = statusCode .ok then
    ⟨rspBytes (answer (decbWord block)) ++ rest.out, rest.result⟩
  else ⟨[], decodeFailure pos block (answer (decbWord block))⟩

/-- Decode non-whitespace characters, the first of them at stream position `pos` (R147, R148, R151). -/
def decodeChars (pos : Nat) (cs : List Byte) : DecodeOutcome :=
  match cs with
  | c0 :: c1 :: c2 :: c3 :: c4 :: rest => decodeBlock pos [c0, c1, c2, c3, c4] (decodeChars (pos + 5) rest)
  | [] => ⟨[], .ok⟩
  | [_] => ⟨[], .truncatedInput⟩
  | short => decodeBlock pos short ⟨[], .ok⟩

/-- The whitespace filter (R145). -/
def dropWhitespace (input : List Byte) : List Byte := input.filter fun b => !isWhitespace b

/-- The outcome of a stream decode (R151). -/
def decodeText (input : List Byte) : DecodeOutcome := decodeChars 0 (dropWhitespace input)

/-! ## The pseudo-instructions -/

/-- The commands that `ENCODE` stands for (30_encoding.md R79). -/
def expandEncode (bs : List Byte) : List Command := (encodeBlocks bs).map encbWord

/-- Cut characters into full groups of five and what is left over (R79). -/
def groupsOfFive (cs : List Byte) : List (List Byte) × List Byte :=
  match cs with
  | c0 :: c1 :: c2 :: c3 :: c4 :: rest =>
    ([c0, c1, c2, c3, c4] :: (groupsOfFive rest).1, (groupsOfFive rest).2)
  | short => ([], short)

/-- Commands up to and with the first whose response is not `OK` (R79). -/
def upToFailure (ws : List Command) : List Command :=
  match ws with
  | [] => []
  | w :: rest => if rspStatus (answer w) = statusCode .ok then w :: upToFailure rest else [w]

/-- The commands that `DECODE` of a text stands for (R79); a single left-over character gives none. -/
def expandDecode (input : List Byte) : List Command :=
  let g := groupsOfFive (dropWhitespace input)
  upToFailure ((g.1 ++ (if g.2.length ≤ 1 then [] else [g.2])).map decbWord)

end Sys2Proof.Machine
end

