-- ==== Sys2Proof/Machine/Asm.lean ====
section
/-! DEFINITION. The notation of the test vectors (30_encoding.md R77 to R79): commands as text, and responses
read back. It has no effect on the block. -/

namespace Sys2Proof.Machine

/-- One line of R77 or R79, its operands as numbers or as the codes of a quoted text. -/
inductive Asm where
  | a2c (idx : Nat)
  | c2a (chr : Nat)
  | encw (val : Nat)
  | decw (d : List Nat)
  | encb (b : List Nat)
  /-- `ENCB.n`: the length is forced. -/
  | encbN (n : Nat) (b : List Nat)
  | decb (c : List Nat)
  /-- `DECB.n`: the length is forced. -/
  | decbN (n : Nat) (c : List Nat)
  /-- `.word`: a raw command word. -/
  | word (w : Nat)
  /-- The pseudo-instruction `ENCODE` (R79). -/
  | encode (b : List Nat)
  /-- The pseudo-instruction `DECODE` (R79). -/
  | decode (c : List Nat)
  deriving DecidableEq, Repr

/-- Numbers as bytes, if each is 0 to 255. -/
def asBytes (l : List Nat) : Option (List Byte) :=
  if l.all (· < 256) then some (l.map (BitVec.ofNat 8)) else none

/-- `OP`, a forced `LEN` and raw bytes in `BY(0)`.. (R77). -/
def asmBytes (n : Nat) (b : List Nat) : Option (List Command) :=
  if n < 16 ∧ b.length ≤ 4 then (asBytes b).map fun bs => [packCommand 0x5#4 (BitVec.ofNat 4 n) (dataOfBytes bs)]
  else none

/-- `OP`, a forced `LEN` and characters in `CH(0)`.. (R77). -/
def asmChars (n : Nat) (c : List Nat) : Option (List Command) :=
  if n < 16 ∧ c.length ≤ 5 then (asBytes c).map fun cs => [packCommand 0x6#4 (BitVec.ofNat 4 n) (dataOfChars cs)]
  else none

/-- The command words a line stands for: one, but for the pseudo-instructions; none if an operand is out of
the range R77 gives it. Ignored fields are 0 (R77). -/
def assemble : Asm → Option (List Command)
  | .a2c idx => if idx < 256 then some [packCommand 0x1#4 0#4 (BitVec.ofNat 40 idx)] else none
  | .c2a chr => if chr < 256 then some [packCommand 0x2#4 0#4 (BitVec.ofNat 40 chr)] else none
  | .encw val => if val < 2 ^ 32 then some [packCommand 0x3#4 0#4 (BitVec.ofNat 40 val)] else none
  | .decw d => if d.length = 5 then (asBytes d).map fun x => [packCommand 0x4#4 0#4 (dataOfChars x)] else none
  | .encb b => if 1 ≤ b.length then asmBytes b.length b else none
  | .encbN n b => asmBytes n b
  | .decb c => if 2 ≤ c.length then asmChars c.length c else none
  | .decbN n c => asmChars n c
  | .word w => if w < 2 ^ 48 then some [BitVec.ofNat 48 w] else none
  | .encode b => (asBytes b).map expandEncode
  | .decode c => (asBytes c).map expandDecode

/-! ## Text -/

/-- The value of a decimal digit. -/
def decimalDigit (c : Char) : Option Nat :=
  if 48 ≤ c.toNat ∧ c.toNat ≤ 57 then some (c.toNat - 48) else none

/-- The value of a hexadecimal digit. -/
def hexDigit (c : Char) : Option Nat :=
  if 48 ≤ c.toNat ∧ c.toNat ≤ 57 then some (c.toNat - 48)
  else if 65 ≤ c.toNat ∧ c.toNat ≤ 70 then some (c.toNat - 55)
  else if 97 ≤ c.toNat ∧ c.toNat ≤ 102 then some (c.toNat - 87)
  else none

/-- Digits of a radix, most significant first, onto a value. -/
def readDigits (digit : Char → Option Nat) (radix value : Nat) (cs : List Char) : Option Nat :=
  match cs with
  | [] => some value
  | c :: rest =>
    match digit c with
    | none => none
    | some d => readDigits digit radix (value * radix + d) rest

/-- A number: decimal, or hexadecimal after `0x` (R77). -/
def readNumber (cs : List Char) : Option Nat :=
  match cs with
  | [] => none
  | '0' :: 'x' :: c :: rest => readDigits hexDigit 16 0 (c :: rest)
  | c :: rest => readDigits decimalDigit 10 0 (c :: rest)

/-- The codes of the characters of a quoted text up to its closing mark, `\xHH` standing for the code HH,
and what follows the mark (R77). -/
def readQuoted (mark : Char) (cs : List Char) : Option (List Nat × List Char) :=
  match cs with
  | [] => none
  | '\\' :: 'x' :: h :: l :: rest =>
    match hexDigit h, hexDigit l, readQuoted mark rest with
    | some a, some b, some (codes, after) => some ((16 * a + b) :: codes, after)
    | _, _, _ => none
  | c :: rest =>
    if c = mark then some ([], rest)
    else
      match readQuoted mark rest with
      | some (codes, after) => some (c.toNat :: codes, after)
      | none => none

/-- Split at commas, blanks left out (log entry 20). -/
def splitCommas (word : List Char) (cs : List Char) : List (List Char) :=
  match cs with
  | [] => [word]
  | ',' :: rest => word :: splitCommas [] rest
  | ' ' :: rest => splitCommas word rest
  | c :: rest => splitCommas (word ++ [c]) rest

/-- Every entry a number, or nothing. -/
def readNumbers (l : List (List Char)) : Option (List Nat) :=
  match l with
  | [] => some []
  | w :: rest =>
    match readNumber w, readNumbers rest with
    | some n, some ns => some (n :: ns)
    | _, _ => none

/-- The operands of a line: a quoted text, a quoted character, numbers between commas, or none at all (R77). -/
def readOperands (cs : List Char) : Option (List Nat) :=
  match cs with
  | [] => some []
  | '"' :: rest =>
    match readQuoted '"' rest with
    | some (codes, []) => some codes
    | _ => none
  | '\'' :: rest =>
    match rest with
    | [c, '\''] => some [c.toNat]
    | _ => none
  | c :: rest => readNumbers (splitCommas [] (c :: rest))

/-- The mnemonic of a line and the text of its operands: they are parted by the first blank. -/
def splitMnemonic (cs : List Char) : List Char × List Char :=
  match cs with
  | [] => ([], [])
  | ' ' :: rest => ([], rest.dropWhile (· = ' '))
  | c :: rest => (c :: (splitMnemonic rest).1, (splitMnemonic rest).2)

/-- A line from its mnemonic and its operands (R77, R79). -/
def asmLine (mnemonic : List Char) (ops : List Nat) : Option Asm :=
  match mnemonic, ops with
  | ['A', '2', 'C'], [n] => some (.a2c n)
  | ['C', '2', 'A'], [n] => some (.c2a n)
  | ['E', 'N', 'C', 'W'], [n] => some (.encw n)
  | ['D', 'E', 'C', 'W'], l => some (.decw l)
  | ['E', 'N', 'C', 'B'], l => some (.encb l)
  | ['D', 'E', 'C', 'B'], l => some (.decb l)
  | ['E', 'N', 'C', 'O', 'D', 'E'], l => some (.encode l)
  | ['D', 'E', 'C', 'O', 'D', 'E'], l => some (.decode l)
  | ['.', 'w', 'o', 'r', 'd'], [n] => some (.word n)
  | 'E' :: 'N' :: 'C' :: 'B' :: '.' :: n, l => (readNumber n).map fun k => .encbN k l
  | 'D' :: 'E' :: 'C' :: 'B' :: '.' :: n, l => (readNumber n).map fun k => .decbN k l
  | _, _ => none

/-- A line of text (R77; the blanks allowed are the model's, log entry 20). -/
def parseAsm (text : List Char) : Option Asm :=
  match readOperands (splitMnemonic text).2 with
  | none => none
  | some ops => asmLine (splitMnemonic text).1 ops

/-! ## Responses -/

/-- A response as R78 writes it. -/
inductive Reply where
  | ok (len : Nat) (data : Data) (ovf : Bool)
  | invalidCharacter (pos : Nat) (chr : Byte)
  | malformedLength
  | contractViolation (pos : Nat) (chr : Byte)
  | illegalCommand
  deriving DecidableEq, Repr

/-- The reading of a response word (R78); statuses 5 to 15 are never produced (60_exceptions.md R170). -/
def readReply (w : ResponseWord) : Option Reply :=
  match rspStatus w with
  | 0#4 => some (.ok (rspLen w).toNat (rspData w) (rspOvf w))
  | 1#4 => some (.invalidCharacter (rspErrpos w).toNat (rspErrchar w))
  | 2#4 => some .malformedLength
  | 3#4 => some (.contractViolation (rspErrpos w).toNat (rspErrchar w))
  | 4#4 => some .illegalCommand
  | _ => none

end Sys2Proof.Machine
end

