-- ==== Sys2Proof/WellFormed.lean ====
section
/-! DEFINITION. Well-formed commands: the operand duties of the host (70_reset_and_hazards.md R198;
30_encoding.md R74). Every term of `Instr` has an encoding, whatever its fields hold, and the block answers
every one of them; a well-formed command is one that a correct host may issue (log entry 21). -/

namespace Sys2Proof

/-- A lane value that is a digit, 0 to 84 (30_encoding.md R66). -/
def isDigitLane (x : Byte) : Bool := x.toNat < Config.base

/-- The operand duties of R198: ENCB with `LEN` 1 to 4, DECB with `LEN` 2 to 5, an A2C index of at most 84,
DECW lanes of at most 84, and no illegal `OP`. -/
def Instr.wellFormed : Instr → Bool
  | .a2c _ _ idx => isDigitLane idx
  | .c2a _ _ _ => true
  | .encw _ _ _ => true
  | .decw _ x =>
    isDigitLane x.l0 && isDigitLane x.l1 && isDigitLane x.l2 && isDigitLane x.l3 && isDigitLane x.l4
  | .encb len _ _ _ _ _ => 1 ≤ len.toNat && len.toNat ≤ Config.nbyte
  | .decb len _ => 2 ≤ len.toNat && len.toNat ≤ Config.ndig
  | .illegal0 _ _ => false
  | .illegal7 _ _ => false
  | .illegal8 _ _ => false
  | .illegal9 _ _ => false
  | .illegalA _ _ => false
  | .illegalB _ _ => false
  | .illegalC _ _ => false
  | .illegalD _ _ => false
  | .illegalE _ _ => false
  | .illegalF _ _ => false

end Sys2Proof
end

