-- ==== Sys2Proof/Safety.lean ====
section
/-! DEFINITION. The terms claims use: the machine invariant and the shape of a legal response word; what a
command leaves unchanged; and the closed forms the rules give beside their pseudocode (41_encoder.md R101;
42_decoder.md R120; 20_memory.md R46), on exact natural numbers. -/

namespace Sys2Proof.Machine

/-- What a host may rely on in any response word (30_encoding.md R62; 60_exceptions.md R170, R178;
93_implementation_defined.md U8): `STATUS` at most 4 and bits 55:53 zero; on `OK` one to five result elements
and no error fields; on an error no result and no `OVF`. -/
def responseLegal (w : ResponseWord) : Bool :=
  decide ((rspStatus w).toNat ≤ 4) && rspReserved w == 0#3 &&
    (if rspStatus w = 0#4 then
      decide (1 ≤ (rspLen w).toNat) && decide ((rspLen w).toNat ≤ 5) && rspErrpos w == 0#4 && rspErrchar w == 0#8
    else rspLen w == 0#4 && !rspOvf w && rspData w == 0#40)

/-- The encode carry keeps its bounds (43_stream_host.md R141): at most 3 bytes between bytes of input, 1 to 4
when a command is due, none at a successful end. -/
def encodeHostOk (h : EncodeHost) : Bool :=
  match h.phase with
  | .reading => decide (h.ec.length ≤ 3)
  | .presenting => decide (1 ≤ h.ec.length) && decide (h.ec.length ≤ 4)
  | .awaiting => decide (1 ≤ h.ec.length) && decide (h.ec.length ≤ 4)
  | .finished .ok => h.ec.isEmpty
  | .finished _ => true

/-- The decode carry keeps its bounds (R146): at most 4 characters while reading, 2 to 5 when a command is
due, none at a successful end and one at `TruncatedInput` (R148). -/
def decodeHostOk (h : DecodeHost) : Bool :=
  match h.phase with
  | .reading => decide (h.dc.length ≤ 4)
  | .presenting => decide (2 ≤ h.dc.length) && decide (h.dc.length ≤ 5)
  | .awaiting => decide (2 ≤ h.dc.length) && decide (h.dc.length ≤ 5)
  | .finished .ok => h.dc.isEmpty
  | .finished .truncatedInput => decide (h.dc.length = 1)
  | .finished _ => true

/-- The host's carries keep their bounds. -/
def driverOk (d : Driver) : Bool :=
  match d with
  | .manual _ => true
  | .encode h => encodeHostOk h
  | .decode h => decodeHostOk h

/-- The machine invariant. -/
abbrev State.Inv (s : State) : Prop :=
  s.mem.constant = true ∧
  ¬(s.busy = true ∧ s.rspv = true) ∧
  (s.busy = false → s.wait = 0) ∧
  (s.rspv = true → responseLegal s.rsp = true) ∧
  driverOk s.driver = true

/-! ## What a command writes and what it leaves -/

/-- The command has completed with response word `w` (10_state.md R23). -/
abbrev Answered (t : State) (w : ResponseWord) : Prop := t.rsp = w ∧ t.rspv = true ∧ t.busy = false

/-- Neither table changed, cell by cell (20_memory.md R49). -/
abbrev SameTables (s t : State) : Prop :=
  (∀ a, t.mem.readFwd a = s.mem.readFwd a) ∧ ∀ c, t.mem.readRev c = s.mem.readRev c

/-- No latch, no input and no host changed, and nothing was drawn. -/
abbrev SameLatches (s t : State) : Prop :=
  t.chr = s.chr ∧ t.opr = s.opr ∧ t.lenr = s.lenr ∧ t.draws = s.draws ∧ t.rstIn = s.rstIn ∧ t.driver = s.driver

/-- No latched field of a command changed (10_state.md R25). -/
abbrev SameCommand (s t : State) : Prop := t.chr = s.chr ∧ t.opr = s.opr ∧ t.lenr = s.lenr

/-- No register of the iterative units changed (10_state.md R20: only ENCW, DECW, ENCB and DECB write them). -/
abbrev SameWork (s t : State) : Prop := t.num = s.num ∧ t.dg = s.dg ∧ t.cnt = s.cnt

/-! ## Closed forms -/

/-- `FWD[i]` of R41, and 0xFF where there is no such cell. -/
def fwdConst (i : Nat) : Byte := forwardTable.getD i 0xFF#8

/-- `REV[c]` of R42. -/
def revConst (c : Byte) : Byte := reverseTable.getD c.toNat 0xFF#8

/-- The character is in the alphabet (R42). -/
abbrev InAlphabet (c : Byte) : Prop := revConst c ≠ 0xFF#8

/-- Digit `i` of a value: `(v div 85^(4-i)) mod 85` (R101). -/
def digitAt (v i : Nat) : Nat := v / 85 ^ (4 - i) % 85

/-- The value of a block of at most four raw bytes, `sum of b[j] << (24 - 8*j)` (R46). -/
def rawValue (bs : List Byte) : Nat :=
  (bs.getD 0 0#8).toNat * 2 ^ 24 + (bs.getD 1 0#8).toNat * 2 ^ 16 + (bs.getD 2 0#8).toNat * 2 ^ 8 +
    (bs.getD 3 0#8).toNat

/-- The exact value `E` of five digit lanes (R120). -/
def exactValue (x : Five Byte) : Nat :=
  x.l0.toNat * 85 ^ 4 + x.l1.toNat * 85 ^ 3 + x.l2.toNat * 85 ^ 2 + x.l3.toNat * 85 + x.l4.toNat

/-- The first `n` bytes of a 32-bit value in big-endian order (R46). -/
def leadingBytes (num n : Nat) : List Byte :=
  (List.range n).map fun j => BitVec.ofNat 8 (num / 256 ^ (3 - j))

/-- The first `n` characters of a value's five digits (R106). -/
def leadingChars (v n : Nat) : List Byte := (List.range n).map fun i => fwdConst (digitAt v i)

/-- The five digit lanes of a block of characters, the digit 84 beyond its end (R124). -/
def blockDigits (cs : List Byte) : Five Byte := lanesOf 84#8 (cs.map revConst)

end Sys2Proof.Machine
end

