-- ==== Sys2Proof/Certificates/Slice0/Obligations.lean ====
section
/-! DEFINITION. The statements for the provers. Where a statement rests on the model's own choice its docstring
names the log entry. `s.mem.constant = true` is part of the machine invariant (`InvariantIsKept`). -/

open Sys2Proof Sys2Proof.Machine

/-! ## Reset, invariant, stepping -/

/-- R191: after reset no response is pending, no command is in flight, and both tables read as their constants. That
`cmd_ready` is 1 there is R63 and R190 for an edge with `rst = 0`; that the coming edge is such an edge is the model's choice
(log entry 17: `State.reset` lists no coming values of `rst`, and an unlisted one is 0). -/
def Obligations.ResetIsIdleWithConstantTables : Prop :=
  State.reset.rspv = false ∧ State.reset.busy = false ∧
    (∀ a, State.reset.mem.readFwd a = forwardTable[a]?) ∧
    (∀ c : Byte, State.reset.mem.readRev c = revConst c) ∧
    State.reset.cmdReady = true

/-- R190, R191, R192: at an edge with `rst = 1` no command is accepted and no response is offered or taken; after it
no response is pending and no command is in flight, the tables are as before, and the block accepts commands from
the next edge with `rst = 0` on. -/
def Obligations.RstEdgeIdlesTheBlock : Prop :=
  ∀ s : State, s.rst = true →
    s.cmdReady = false ∧ s.rspValid = false ∧ s.accepts = false ∧ s.takes = false ∧
      ∃ t, step s = .next t ∧ t.rspv = false ∧ t.busy = false ∧ SameTables s t ∧ t.cmdReady = !t.rst

/-- A stream host that presents a command or awaits its response keeps everything it holds at a `rst` edge (R192: "A
host's carry buffers are not touched by the block's reset"), and presents the command, again if need be, after it
(the model's choice, log entry 15). -/
def Obligations.RstKeepsTheHostsCarry : Prop :=
  ∀ s t : State, s.rst = true → step s = .next t →
    (∀ h, s.driver = .encode h → h.phase = .awaiting ∨ h.phase = .presenting →
      t.driver = .encode { h with phase := .presenting }) ∧
    (∀ h, s.driver = .decode h → h.phase = .awaiting ∨ h.phase = .presenting →
      t.driver = .decode { h with phase := .presenting })

/-- The machine invariant holds at reset. Its clause that `wait` is 0 while no command is in flight is about the model's
own field, whose 0 at reset is the model's choice (log entry 4); R33 knows no such field. -/
def Obligations.InvariantHoldsAtReset : Prop := State.reset.Inv

/-- Every step keeps the machine invariant: constant tables, at most one of a command in flight and a pending
response, a legal word in `RSP` while a response is pending, the host's carries within their bounds, and `wait` 0 while no
command is in flight (a clause about the model's own field, log entry 4). -/
def Obligations.InvariantIsKept : Prop := ∀ s t : State, s.Inv → step s = .next t → t.Inv

/-- The block never stops (60_exceptions.md R180): from every state, reachable or not, a step answers a next
state. -/
def Obligations.NoStepEverStops : Prop := ∀ s : State, ∃ t, step s = .next t

/-- A step runs the decoded instruction. With a command in flight and no further edge due, the step is `exec` of
the instruction the latches hold, and then the outside moves on; with further edges due it uses up one of them;
and at an accepting edge it is the acceptance, or `exec` after the acceptance where the command takes no further
edge. The spec leaves the number of edges open: counting them by `wait` and `Config.latency` is the model's choice (log
entry 4), and that nothing but `wait` changes on the edges before completion is the model's inference (log entry 5). -/
def Obligations.StepRunsTheDecodedInstruction : Prop :=
  (∀ (s : State) (i : Instr), s.rst = false → s.busy = true → s.wait ≤ 1 → s.latched = encode i →
    ∃ t, exec i s = .next t ∧ step s = .next (s.outsideEdge t)) ∧
  (∀ s : State, s.rst = false → s.busy = true → 2 ≤ s.wait →
    step s = .next (s.outsideEdge { s with wait := s.wait - 1 })) ∧
  (∀ (s : State) (i : Instr), s.accepts = true → (driverPins s.driver).cmd = encode i →
    ∃ t, exec i (s.accept (encode i)) = .next t ∧
      step s = .next (s.outsideEdge (if Config.latency s.draws (encode i) = 0 then t else s.accept (encode i))))

/-- R49: nothing writes the tables. A step leaves every cell of both as it was. -/
def Obligations.NoStepWritesATable : Prop := ∀ s t : State, step s = .next t → SameTables s t

/-! ## Words -/

/-- Words written out from the encoding tables of R61, R64 to R70 and R72 decode to the commands they stand
for. -/
def Obligations.WrittenWordsDecode : Prop :=
  decodeWord 0x100000000054#48 = .a2c 0#4 0#32 0x54#8 ∧
    decodeWord 0x20000000007E#48 = .c2a 0#4 0#32 0x7E#8 ∧
    decodeWord 0x37AB12345678#48 = .encw 7#4 0xAB#8 0x12345678#32 ∧
    decodeWord 0x401849504E3D#48 = .decw 0#4 ⟨24#8, 73#8, 80#8, 78#8, 61#8⟩ ∧
    decodeWord 0x51EE4DAABBCC#48 = .encb 1#4 0xEE#8 0x4D#8 0xAA#8 0xBB#8 0xCC#8 ∧
    decodeWord 0x624F23010203#48 = .decb 2#4 ⟨0x4F#8, 0x23#8, 0x01#8, 0x02#8, 0x03#8⟩ ∧
    decodeWord 0x0F4F23000000#48 = .illegal0 0xF#4 0x4F23000000#40 ∧
    decodeWord 0xFFFFFFFFFFFF#48 = .illegalF 0xF#4 0xFFFFFFFFFF#40

/-- Decoding an encoded instruction gives it back, for every instruction and every value of every field, as a
word and as bytes (the byte order is the model's, log entry 12). -/
def Obligations.DecodeOfEncodeIsTheInstruction : Prop :=
  ∀ i : Instr, decodeWord (encode i) = i ∧ decodeBytes (encodeBytes i) = .ok i

/-- Every command word is the encoding of the instruction it decodes to: no bit of a word is dropped, and each
word means one instruction. -/
def Obligations.EncodeOfDecodeIsTheWord : Prop := ∀ w : Command, encode (decodeWord w) = w

/-- A byte string decodes exactly when it is six bytes long. That commands are 48 bits is R60's and R76's; that one is
read from a byte string, and from six bytes, is the model's choice (log entry 12): the spec has a 48-bit port and no byte
layout. -/
def Obligations.OnlySixBytesDecode : Prop :=
  ∀ bs : List Byte, (∃ i, decodeBytes bs = .ok i) ↔ bs.length = 6

/-- R62: where each field stands in a response word, and that each is read back. -/
def Obligations.ResponseFieldsStandWhereR62Says : Prop :=
  ∀ r : Response,
    (packResponse r).toNat =
        r.status.toNat * 2 ^ 60 + r.len.toNat * 2 ^ 56 + r.ovf.toNat * 2 ^ 52 + r.errpos.toNat * 2 ^ 48 +
          r.errchar.toNat * 2 ^ 40 + r.data.toNat ∧
      rspStatus (packResponse r) = r.status ∧ rspLen (packResponse r) = r.len ∧
      rspReserved (packResponse r) = 0#3 ∧ rspOvf (packResponse r) = r.ovf ∧
      rspErrpos (packResponse r) = r.errpos ∧ rspErrchar (packResponse r) = r.errchar ∧
      rspData (packResponse r) = r.data

/-- R64, R65: the character lanes and the byte lanes of a `DATA` field, the field built from a block, that `BY(j)` and
`CH(j + 1)` are the same bits, and that the value of a full raw block is `DATA[31:0]`. -/
def Obligations.LanesStandWhereR64AndR65Say : Prop :=
  (∀ (d : Data) (i : Fin 5), (laneGet (charLanes d) i).toNat = d.toNat / 2 ^ (32 - 8 * i.val) % 256) ∧
  (∀ (d : Data) (j : Fin 4), ((byteLanes d).getD j.val 0#8).toNat = d.toNat / 2 ^ (24 - 8 * j.val) % 256) ∧
  (∀ (cs : List Byte) (i : Fin 5), laneGet (charLanes (dataOfChars cs)) i = cs.getD i.val 0#8) ∧
  (∀ (bs : List Byte) (j : Fin 4), (byteLanes (dataOfBytes bs)).getD j.val 0#8 = bs.getD j.val 0#8) ∧
  (∀ bs : List Byte, (charLanes (dataOfBytes bs)).l0 = 0#8) ∧
  (∀ (d : Data) (j : Fin 4), (byteLanes d).getD j.val 0#8 = laneGet (charLanes d) j.succ) ∧
  (∀ d : Data, bigEndian (byteLanes d) = d.extractLsb' 0 32)

/-! ## The tables -/

/-- R41, R43: the contents of `FWD`, the ten digits, the capital letters, the small letters and the 23 marks in the order
of R41, and the invariants of the two tables, (a) to (f), read through a memory that holds its constants. -/
def Obligations.TablesAreInverse : Prop :=
  ∀ m : Memory, m.constant = true →
    (∀ i, i < 10 → m.readFwd i = some (BitVec.ofNat 8 (0x30 + i))) ∧
    (∀ i, 10 ≤ i → i < 36 → m.readFwd i = some (BitVec.ofNat 8 (0x41 + (i - 10)))) ∧
    (∀ i, 36 ≤ i → i < 62 → m.readFwd i = some (BitVec.ofNat 8 (0x61 + (i - 36)))) ∧
    (∀ k, k < 23 → m.readFwd (62 + k) =
      [0x21#8, 0x23#8, 0x24#8, 0x25#8, 0x26#8, 0x28#8, 0x29#8, 0x2A#8, 0x2B#8, 0x2D#8, 0x3B#8, 0x3C#8, 0x3D#8, 0x3E#8,
        0x3F#8, 0x40#8, 0x5E#8, 0x5F#8, 0x60#8, 0x7B#8, 0x7C#8, 0x7D#8, 0x7E#8][k]?) ∧
    (∀ i j : Nat, i ≤ 84 → j ≤ 84 → m.readFwd i = m.readFwd j → i = j) ∧
    (∀ i : Nat, i ≤ 84 → ∃ c, m.readFwd i = some c ∧ (m.readRev c).toNat = i) ∧
    (∀ c : Byte, m.readRev c ≠ 0xFF#8 → m.readFwd (m.readRev c).toNat = some c) ∧
    (∀ c : Byte, m.readRev c ≠ 0xFF#8 → (m.readRev c).toNat ≤ 84) ∧
    (∀ (i : Nat) (c : Byte), m.readFwd i = some c → 0x21 ≤ c.toNat ∧ c.toNat ≤ 0x7E) ∧
    m.readFwd 0 = some 0x30#8 ∧ m.readFwd 84 = some 0x7E#8 ∧ m.readFwd 61 = some 0x7A#8

/-- R40, R44: the cells of `FWD` are those at 0 to 84, in every state of the memory; `FWD` addresses from 85 on
do not exist. -/
def Obligations.ForwardCellsAreZeroTo84 : Prop :=
  ∀ (m : Memory) (a : Nat), (∃ c, m.readFwd a = some c) ↔ a ≤ 84

/-! ## A2C and C2A -/

/-- R90: the word with `OP = 1` is `A2C` of the index in `DATA[7:0]`; it answers the character of an index 0 to 84 and
`ContractViolation` with the index for any other, whatever `LEN` and `DATA[39:8]` hold. -/
def Obligations.A2cAnswersTheCharacter : Prop :=
  ∀ (len : BitVec 4) (junk : BitVec 32) (idx : Byte),
    decodeWord (packCommand 0x1#4 len (junk ++ idx)) = .a2c len junk idx ∧
    ∀ s : State, s.mem.constant = true →
      ∃ t, exec (.a2c len junk idx) s = .next t ∧
        Answered t
          (if idx.toNat ≤ 84 then okWord 1#4 ((fwdConst idx.toNat).setWidth 40) false
          else errorWord .contractViolation 0#4 idx)

/-- R91: the word with `OP = 2` is `C2A` of the character code in `DATA[7:0]`; it answers the digit of a character of
the alphabet and `InvalidCharacter` with the character and position 0 for any other, whatever `LEN` and `DATA[39:8]`
hold. -/
def Obligations.C2aAnswersTheDigit : Prop :=
  ∀ (len : BitVec 4) (junk : BitVec 32) (chr : Byte),
    decodeWord (packCommand 0x2#4 len (junk ++ chr)) = .c2a len junk chr ∧
    ∀ s : State, s.mem.constant = true →
      ∃ t, exec (.c2a len junk chr) s = .next t ∧
        Answered t
          (if InAlphabet chr then okWord 1#4 ((revConst chr).setWidth 40) false
          else errorWord .invalidCharacter 0#4 chr)

/-- R92: the two lookups are inverse to each other as commands, (a) and (b), and each answers `OK` for exactly 85
operands, (c) and (d). -/
def Obligations.LookupsAreInverseCommands : Prop :=
  let a2c := fun i : Byte => answer (encode (.a2c 0#4 0#32 i))
  let c2a := fun c : Byte => answer (encode (.c2a 0#4 0#32 c))
  (∀ i : Byte, i.toNat ≤ 84 →
    ∃ k : Byte, a2c i = okWord 1#4 (k.setWidth 40) false ∧ c2a k = okWord 1#4 (i.setWidth 40) false) ∧
  (∀ c i : Byte, c2a c = okWord 1#4 (i.setWidth 40) false → a2c i = okWord 1#4 (c.setWidth 40) false) ∧
  ((List.range 256).filter fun n => rspStatus (c2a (BitVec.ofNat 8 n)) == 0#4).length = 85 ∧
  ((List.range 256).filter fun n => rspStatus (c2a (BitVec.ofNat 8 n)) == 1#4).length = 171 ∧
  (∀ i : Byte, rspStatus (a2c i) = 0#4 ↔ i.toNat ≤ 84) ∧
  (∀ i j : Byte, i.toNat ≤ 84 → j.toNat ≤ 84 → a2c i = a2c j → i = j)

/-- What A2C, C2A and the ten illegal words leave unchanged: the tables, the latches, the working registers of
the iterative units, the host. They write `RSP`, `RSPV` and `BUSY` (10_state.md R20, R23). -/
def Obligations.LookupAndIllegalFrame : Prop :=
  ∀ (i : Instr) (s t : State),
    (match i with
      | .encw _ _ _ => False
      | .decw _ _ => False
      | .encb _ _ _ _ _ _ => False
      | .decb _ _ => False
      | _ => True) →
    exec i s = .next t → SameTables s t ∧ SameLatches s t ∧ SameWork s t

/-! ## ENCW and ENCB -/

/-- R101: the digit function leaves in `DG[i]` the digit `(v div 85^(4-i)) mod 85`, and its five steps are
counted. -/
def Obligations.EncodeIterationGivesTheDigits : Prop :=
  ∀ (s : State) (v : Value),
    (∀ i : Fin 5, (laneGet (s.encDigits v).dg i).toNat = digitAt v.toNat i.val) ∧ (s.encDigits v).cnt = 5#3

/-- R103: the range facts of the digit function, (a) to (f). -/
def Obligations.EncodeDigitRanges : Prop :=
  (∀ (s : State) (v : Value),
    let d := fun i : Fin 5 => (laneGet (s.encDigits v).dg i).toNat
    v.toNat = d 0 * 85 ^ 4 + d 1 * 85 ^ 3 + d 2 * 85 ^ 2 + d 3 * 85 + d 4 ∧
      (s.encDigits v).num = 0#32 ∧ (∀ i, d i ≤ 84) ∧ d 0 ≤ 82) ∧
  (∀ (s s' : State) (v v' : Value), (s.encDigits v).dg = (s'.encDigits v').dg → v = v') ∧
  (∀ s : State,
    (s.encDigits 0#32).dg = ⟨0#7, 0#7, 0#7, 0#7, 0#7⟩ ∧ (s.encDigits 84#32).dg = ⟨0#7, 0#7, 0#7, 0#7, 84#7⟩ ∧
      (s.encDigits 85#32).dg = ⟨0#7, 0#7, 0#7, 1#7, 0#7⟩ ∧
      (s.encDigits 52200624#32).dg = ⟨0#7, 84#7, 84#7, 84#7, 84#7⟩ ∧
      (s.encDigits 52200625#32).dg = ⟨1#7, 0#7, 0#7, 0#7, 0#7⟩ ∧
      (s.encDigits 0xFFFFFFFF#32).dg = ⟨82#7, 23#7, 54#7, 12#7, 0#7⟩)

/-- R105: the word with `OP = 3` is `ENCW` of the value in `DATA[31:0]`; it answers the five digits of the value, most
significant first, from every state and whatever `LEN` and `DATA[39:32]` hold; it has no error. -/
def Obligations.EncwAnswersTheDigits : Prop :=
  ∀ (len : BitVec 4) (junk : Byte) (v : Value),
    decodeWord (packCommand 0x3#4 len (junk ++ v)) = .encw len junk v ∧
    ∀ s : State,
      ∃ t, exec (.encw len junk v) s = .next t ∧
        Answered t
          (okWord 5#4 (dataOfChars ((List.range 5).map fun i => BitVec.ofNat 8 (digitAt v.toNat i))) false)

/-- R106: the word with `OP = 5` is `ENCB` of the byte lanes of `DATA`; with `LEN` 1 to 4 it answers the first
`LEN + 1` characters of the digits of the zero-padded big-endian value of the first `LEN` bytes; with any other `LEN`
it answers `ContractViolation` with nothing recorded. -/
def Obligations.EncbAnswersTheCharacters : Prop :=
  ∀ (len : BitVec 4) (junk b0 b1 b2 b3 : Byte),
    decodeWord (packCommand 0x5#4 len (junk ++ b0 ++ b1 ++ b2 ++ b3)) = .encb len junk b0 b1 b2 b3 ∧
    ∀ s : State, s.mem.constant = true →
      ∃ t, exec (.encb len junk b0 b1 b2 b3) s = .next t ∧
        Answered t
          (if 1 ≤ len.toNat ∧ len.toNat ≤ 4 then
            okWord (len + 1#4)
              (dataOfChars (leadingChars (rawValue ([b0, b1, b2, b3].take len.toNat)) (len.toNat + 1))) false
          else errorWord .contractViolation 0#4 0#8)

/-- R107: `ENCB` of `L` raw bytes, 1 to 4, answers `OK` with `L + 1` characters, and it never answers `OK` with fewer
than two. -/
def Obligations.EncbLengthLaw : Prop :=
  ∀ (len : BitVec 4) (junk b0 b1 b2 b3 : Byte),
    let r := answer (encode (.encb len junk b0 b1 b2 b3))
    (1 ≤ len.toNat ∧ len.toNat ≤ 4 →
      rspStatus r = 0#4 ∧ (rspLen r).toNat = len.toNat + 1 ∧ (rspChars r).length = len.toNat + 1) ∧
    (rspStatus r = 0#4 → 2 ≤ (rspLen r).toNat)

/-- R108: the characters of a short block are the first `L + 1` characters of the block padded with zero
bytes. -/
def Obligations.EncbPrefixLaw : Prop :=
  ∀ bs : List Byte, 1 ≤ bs.length → bs.length ≤ 3 →
    encodeBlock bs = (encodeBlock (bs ++ List.replicate (4 - bs.length) 0#8)).take (bs.length + 1)

/-- R110: `ENCB` of a full block is `ENCW` followed by five forward lookups. -/
def Obligations.EncbIsEncwThenLookups : Prop :=
  ∀ (b0 b1 b2 b3 : Byte) (i : Fin 5),
    okWord 1#4 (((encodeBlock [b0, b1, b2, b3]).getD i.val 0#8).setWidth 40) false =
      answer (encode (.a2c 0#4 0#32
        (laneGet (charLanes (rspData (answer (encode (.encw 0#4 0#8 (b0 ++ b1 ++ b2 ++ b3)))))) i)))

/-- R104: a value of 0 is encoded like any other, as `00000`; there is no `z` shortcut, and `z` is the ordinary digit
61. -/
def Obligations.ZeroHasNoShortcut : Prop :=
  answer (encbWord [0#8, 0#8, 0#8, 0#8]) = 0x0500003030303030#64 ∧
    answer (encode (.c2a 0#4 0#32 0x7A#8)) = okWord 1#4 61#40 false ∧
    answer (decbWord [0x7A#8, 0x7A#8, 0x7A#8, 0x7A#8, 0x7A#8]) = okWord 4#4 0xC00E0AB9#40 false

/-! ## DECW and DECB -/

/-- R120: the value function leaves in `NUM` the exact value of the five digits modulo 2^32 and returns 1 exactly
when that value is 2^32 or more; its five steps are counted. -/
def Obligations.DecodeIterationGivesTheValue : Prop :=
  ∀ (s : State) (x : Five Byte), (∀ i, (laneGet x i).toNat ≤ 84) →
    (s.decDigits (paddedDigits (laneList x))).1.num = BitVec.ofNat 32 (exactValue x) ∧
      (s.decDigits (paddedDigits (laneList x))).2 = decide (2 ^ 32 ≤ exactValue x) ∧
      (s.decDigits (paddedDigits (laneList x))).1.cnt = 5#3

/-- R123: the word with `OP = 4` is `DECW` of the five lanes of `DATA`; it answers the value of five digits modulo
2^32, with `OVF` set exactly when the exact value is 2^32 or more; a lane above 84 is answered with
`ContractViolation`, the lowest such lane and its value. `LEN` is ignored, and the state before does not matter. -/
def Obligations.DecwAnswersTheValue : Prop :=
  ∀ (len : BitVec 4) (x : Five Byte),
    decodeWord (packCommand 0x4#4 len (packChars x)) = .decw len x ∧
    ∀ s : State,
      ((∀ i, (laneGet x i).toNat ≤ 84) →
        ∃ t, exec (.decw len x) s = .next t ∧
          Answered t (okWord 4#4 (BitVec.ofNat 40 (exactValue x % 2 ^ 32)) (decide (2 ^ 32 ≤ exactValue x)))) ∧
      (∀ i : Fin 5, 84 < (laneGet x i).toNat → (∀ j, j < i → (laneGet x j).toNat ≤ 84) →
        ∃ t, exec (.decw len x) s = .next t ∧
          Answered t (errorWord .contractViolation (BitVec.ofNat 4 i.val) (laneGet x i)))

/-- R122: the overflow facts of the value function as register transfers. (a) After each of the first four steps the
accumulator is at most 85^4 - 1 and nothing has overflowed, and after four it holds the exact value of the four digits, so
only the last step can overflow. (b) The exact value is at most 85^5 - 1, and `NUM` is left at that value, less 2^32 when
`ovf` is 1: it wraps at most once. (c) `ovf` is 1 exactly from `(82, 23, 54, 12, 1)` on in lexicographic order, so for
every vector with first digit 83 or 84. And the values of (d) and (e), also as responses of DECW. -/
def Obligations.DecodeOverflowFacts : Prop :=
  (∀ (s : State) (x : Five Byte), (∀ i, (laneGet x i).toNat ≤ 84) →
    let d := paddedDigits (laneList x)
    let after := fun k : Nat =>
      (([0, 1, 2, 3] : List (Fin 5)).take k).foldl State.decStep ({ s with dg := d, num := 0#32, cnt := 0#3 }, false)
    let r := s.decDigits d
    (∀ k, k ≤ 4 → (after k).1.num.toNat ≤ 85 ^ 4 - 1 ∧ (after k).2 = false) ∧
      (after 4).1.num.toNat = x.l0.toNat * 85 ^ 3 + x.l1.toNat * 85 ^ 2 + x.l2.toNat * 85 + x.l3.toNat ∧
      r = State.decStep (after 4) 4 ∧
      exactValue x ≤ 85 ^ 5 - 1 ∧
      r.1.num.toNat = (if r.2 then exactValue x - 2 ^ 32 else exactValue x) ∧
      (r.2 = true ↔ List.Lex (· < ·) [82, 23, 54, 12, 0] ((laneList x).map BitVec.toNat)) ∧
      (83 ≤ x.l0.toNat → r.2 = true)) ∧
  (∀ s : State,
    let r := s.decDigits ⟨84#7, 84#7, 84#7, 84#7, 84#7⟩
    let q := s.decDigits ⟨82#7, 23#7, 54#7, 12#7, 1#7⟩
    r.1.num = 0x08780EC4#32 ∧ r.2 = true ∧ q.1.num = 0#32 ∧ q.2 = true) ∧
  answer 0x405454545454#48 = okWord 4#4 0x08780EC4#40 true ∧
  answer 0x405217360C01#48 = okWord 4#4 0#40 true ∧
  answer 0x405217360C00#48 = okWord 4#4 0xFFFFFFFF#40 false

/-- R124: the word with `OP = 6` is `DECB` of the character lanes of `DATA`. The length is checked first; then the
lowest character not in the alphabet is reported; else the first `LEN - 1` bytes of the value are answered, with
`OVF` over all five digits, the padding among them. -/
def Obligations.DecbAnswersTheBytes : Prop :=
  ∀ (len : BitVec 4) (c : Five Byte),
    decodeWord (packCommand 0x6#4 len (packChars c)) = .decb len c ∧
    ∀ s : State, s.mem.constant = true →
      (len.toNat ≤ 1 ∨ 6 ≤ len.toNat →
        ∃ t, exec (.decb len c) s = .next t ∧ Answered t (errorWord .malformedLength 0#4 0#8)) ∧
      (2 ≤ len.toNat ∧ len.toNat ≤ 5 →
        (∀ i : Fin 5, i.val < len.toNat → ¬InAlphabet (laneGet c i) → (∀ j, j < i → InAlphabet (laneGet c j)) →
          ∃ t, exec (.decb len c) s = .next t ∧
            Answered t (errorWord .invalidCharacter (BitVec.ofNat 4 i.val) (laneGet c i))) ∧
        ((∀ i : Fin 5, i.val < len.toNat → InAlphabet (laneGet c i)) →
          let e := exactValue (blockDigits ((laneList c).take len.toNat))
          ∃ t, exec (.decb len c) s = .next t ∧
            Answered t
              (okWord (len - 1#4) (dataOfBytes (leadingBytes (e % 2 ^ 32) (len.toNat - 1)))
                (decide (2 ^ 32 ≤ e)))))

/-- R125, R127: a block of `L` characters of the alphabet, 2 to 5, is decoded to `L - 1` bytes whatever the
characters are: no canonical form is checked, two blocks may decode alike, and encoding what was decoded gives the
block back exactly when it is one that `ENCB` produces. -/
def Obligations.DecbLengthLawWithoutCanonicalForm : Prop :=
  (∀ cs : List Byte, 2 ≤ cs.length → cs.length ≤ 5 → (∀ c ∈ cs, InAlphabet c) →
    let r := answer (decbWord cs)
    rspStatus r = 0#4 ∧ (rspLen r).toNat = cs.length - 1 ∧ (rspBytes r).length = cs.length - 1 ∧
      (encodeBlock (rspBytes r) = cs ↔
        ∃ bs : List Byte, 1 ≤ bs.length ∧ bs.length ≤ 4 ∧ encodeBlock bs = cs)) ∧
  rspBytes (answer (decbWord [0x4F#8, 0x23#8])) = [0x4D#8] ∧
  rspBytes (answer (decbWord [0x4F#8, 0x24#8])) = [0x4D#8] ∧
  encodeBlock [0x4D#8] = [0x4F#8, 0x23#8]

/-- R109, R126: the characters of an encoded block of 1 to 4 raw bytes are in the alphabet, and decoding them gives
the bytes back, with `OK` and `OVF = 0`. -/
def Obligations.BlockRoundTrip : Prop :=
  ∀ bs : List Byte, 1 ≤ bs.length → bs.length ≤ 4 →
    let r := answer (decbWord (encodeBlock bs))
    (∀ c ∈ encodeBlock bs, InAlphabet c) ∧
      rspStatus r = 0#4 ∧ (rspLen r).toNat = bs.length ∧ rspBytes r = bs ∧ rspOvf r = false

/-- R128: `DECB` of `L` characters, 2 to 5, is `L` reverse lookups, `5 - L` constant digits 84, `DECW`, and truncation
to `L - 1` bytes, with the `OVF` of `DECW`; for a full block the response is that of `DECW`. -/
def Obligations.DecbIsLookupsThenDecw : Prop :=
  ∀ cs : List Byte, 2 ≤ cs.length → cs.length ≤ 5 → (∀ c ∈ cs, InAlphabet c) →
    ∃ x : Five Byte,
      (∀ i : Fin 5, i.val < cs.length →
        answer (encode (.c2a 0#4 0#32 (cs.getD i.val 0#8))) = okWord 1#4 ((laneGet x i).setWidth 40) false) ∧
      (∀ i : Fin 5, cs.length ≤ i.val → laneGet x i = 84#8) ∧
      let r := answer (encode (.decw 0#4 x))
      answer (decbWord cs) =
          okWord (BitVec.ofNat 4 (cs.length - 1)) (dataOfBytes ((byteLanes (rspData r)).take (cs.length - 1)))
            (rspOvf r) ∧
        (cs.length = 5 → answer (decbWord cs) = r)

/-- R129: the bare units are inverse: `DECW` of `ENCW`'s digits is the value with `OVF = 0`, and `ENCW` of the
value of a digit vector gives the vector back exactly when its `OVF` is 0. -/
def Obligations.UnitsAreInverse : Prop :=
  (∀ v : Value,
    answer (encode (.decw 0#4 (charLanes (rspData (answer (encode (.encw 0#4 0#8 v))))))) =
      okWord 4#4 (v.setWidth 40) false) ∧
  (∀ x : Five Byte, (∀ i, (laneGet x i).toNat ≤ 84) →
    let r := answer (encode (.decw 0#4 x))
    (charLanes (rspData (answer (encode (.encw 0#4 0#8 ((rspData r).setWidth 32))))) = x ↔ rspOvf r = false))

/-- What ENCW, ENCB, DECW and DECB leave unchanged: the tables, the latches, the host. They write `RSP`, `RSPV`,
`BUSY` and the working registers `NUM`, `DG`, `CNT` (10_state.md R20). -/
def Obligations.EncoderAndDecoderFrame : Prop :=
  ∀ (s t : State),
    (∀ len junk v, exec (.encw len junk v) s = .next t → SameTables s t ∧ SameLatches s t) ∧
    (∀ len junk b0 b1 b2 b3, exec (.encb len junk b0 b1 b2 b3) s = .next t → SameTables s t ∧ SameLatches s t) ∧
    (∀ len x, exec (.decw len x) s = .next t → SameTables s t ∧ SameLatches s t) ∧
    (∀ len c, exec (.decb len c) s = .next t → SameTables s t ∧ SameLatches s t)

/-! ## Errors -/

/-- R73, R174: a word with `OP` 0x0 or 0x7 to 0xF is one of the ten reserved words, and each of these is answered with
`IllegalCommand`, whatever its other fields; it reads no table and changes nothing else. -/
def Obligations.IllegalOpcodesAnswerIllegalCommand : Prop :=
  let reserved := fun (len : BitVec 4) (d : Data) =>
    [Instr.illegal0 len d, .illegal7 len d, .illegal8 len d, .illegal9 len d, .illegalA len d, .illegalB len d,
      .illegalC len d, .illegalD len d, .illegalE len d, .illegalF len d]
  (∀ w : Command,
    decodeWord w ∈ reserved (commandLen w) (commandData w) ↔ commandOp w = 0#4 ∨ 7 ≤ (commandOp w).toNat) ∧
  (∀ (len : BitVec 4) (d : Data) (s : State), ∀ i ∈ reserved len d,
    ∃ t, exec i s = .next t ∧ Answered t (errorWord .illegalCommand 0#4 0#8) ∧ t.mem = s.mem ∧
      SameLatches s t ∧ SameWork s t)

/-- R170: which statuses a command can answer with. Statuses 5 to 15 are produced by none. -/
def Obligations.StatusesOfEachCommand : Prop :=
  ∀ (i : Instr) (s t : State), exec i s = .next t →
    rspStatus t.rsp ∈
      (match i with
        | .a2c _ _ _ => [0#4, 3#4]
        | .c2a _ _ _ => [0#4, 1#4]
        | .encw _ _ _ => [0#4]
        | .decw _ _ => [0#4, 3#4]
        | .encb _ _ _ _ _ _ => [0#4, 3#4]
        | .decb _ _ => [0#4, 1#4, 2#4]
        | _ => [4#4])

/-- R62, R178: every response is legal: bits 55:53 are 0, an error response holds no result and no `OVF`, a success
response no error fields. -/
def Obligations.EveryResponseIsLegal : Prop :=
  ∀ (i : Instr) (s t : State), exec i s = .next t → responseLegal t.rsp = true

/-- R29: `OVF` is 1 only in a success response of DECW or DECB. -/
def Obligations.OvfComesFromTheDecoderOnly : Prop :=
  ∀ (i : Instr) (s t : State), exec i s = .next t → rspOvf t.rsp = true →
    rspStatus t.rsp = 0#4 ∧ ((∃ len x, i = .decw len x) ∨ ∃ len c, i = .decb len c)

/-- R179: a failing command has no effect other than its response. That a failing ENCB, DECW or DECB leaves `NUM`, `DG` and
`CNT`, too, as they were (the `SameWork` clause) is the model's inference (log entry 8): R20 lets these commands write them. -/
def Obligations.FailingCommandOnlyResponds : Prop :=
  ∀ (i : Instr) (s t : State), exec i s = .next t → rspStatus t.rsp ≠ 0#4 →
    SameTables s t ∧ SameLatches s t ∧ SameWork s t ∧ t.rspv = true ∧ t.busy = false

/-- R198: a command is answered with `OK` or `InvalidCharacter` exactly when it meets the host's operand duties. -/
def Obligations.OperandDutiesDecideTheStatus : Prop :=
  ∀ (i : Instr) (s t : State), exec i s = .next t →
    (i.wellFormed = true ↔ rspStatus t.rsp = 0#4 ∨ rspStatus t.rsp = 1#4)

/-- R32: the response is a function of the command word alone: in every state with constant tables, whatever its working
registers, latches, pending response and host, a command is answered as it is right after reset. -/
def Obligations.ResponseIsAFunctionOfTheCommand : Prop :=
  ∀ (i : Instr) (s t : State), s.mem.constant = true → exec i s = .next t → t.rsp = answer (encode i)

/-- R71: ignored fields never change the response. -/
def Obligations.IgnoredFieldsDoNotMatter : Prop :=
  (∀ l l' j j' x, answer (encode (.a2c l j x)) = answer (encode (.a2c l' j' x))) ∧
  (∀ l l' j j' x, answer (encode (.c2a l j x)) = answer (encode (.c2a l' j' x))) ∧
  (∀ l l' j j' v, answer (encode (.encw l j v)) = answer (encode (.encw l' j' v))) ∧
  (∀ l l' x, answer (encode (.decw l x)) = answer (encode (.decw l' x))) ∧
  (∀ (l : BitVec 4) j j' (b b' : Fin 4 → Byte), (∀ k, k.val < l.toNat → b k = b' k) →
    answer (encode (.encb l j (b 0) (b 1) (b 2) (b 3))) = answer (encode (.encb l j' (b' 0) (b' 1) (b' 2) (b' 3)))) ∧
  (∀ (l : BitVec 4) (c c' : Five Byte), (∀ k : Fin 5, k.val < l.toNat → laneGet c k = laneGet c' k) →
    answer (encode (.decb l c)) = answer (encode (.decb l c'))) ∧
  (∀ w w' : Command, commandOp w = commandOp w' → commandOp w = 0#4 ∨ 7 ≤ (commandOp w).toNat →
    answer w = answer w')

/-! ## The ports -/

/-- R23: accepting latches the command word and sets `BUSY`, which stays set until the command completes: after the
accepting edge the command is either in flight, with the response register as it was, or has completed at that edge
already (R63). That the working registers, too, are as they were while it is in flight is the model's inference (log entry
5): R202 allows a step of the iteration each cycle. -/
def Obligations.AcceptLatchesTheCommand : Prop :=
  ∀ s t : State, s.mem.constant = true → s.accepts = true → step s = .next t →
    SameTables s t ∧ t.latched = (driverPins s.driver).cmd ∧
      ((t.busy = true ∧ t.rspv = false ∧ t.rsp = s.rsp ∧ SameWork s t) ∨
        Answered t (answer (driverPins s.driver).cmd))

/-- R23, R197: with a response pending, the host's taking clears `RSPV` and nothing else of the block; until it takes the
response, `RSP` and `RSPV` are held, and no command is accepted (R196). With no response pending, no command in flight and
none accepted, an edge leaves the block as it was. -/
def Obligations.ResponseIsHeldUntilTaken : Prop :=
  ∀ s t : State, s.rst = false → s.busy = false → step s = .next t →
    (s.rspv = true →
      s.accepts = false ∧ t.busy = false ∧ t.rsp = s.rsp ∧ t.rspv = !s.takes ∧ SameTables s t ∧ SameCommand s t ∧
        SameWork s t) ∧
    (s.rspv = false → s.accepts = false →
      t.busy = false ∧ t.rsp = s.rsp ∧ t.rspv = false ∧ SameTables s t ∧ SameCommand s t ∧ SameWork s t)

/-- R195: a word presented while `cmd_ready = 0` is not accepted and has no effect: the step is the one of a host
that presents nothing. At an edge with `rst = 1`, where `cmd_ready` is 0 too, the equality of the two steps rests on the
model's choice that a free value depends on the number of its draw alone (log entry 3). -/
def Obligations.UnreadyBlockIgnoresCommands : Prop :=
  ∀ (s : State) (w : Command) (ready : Bool) (rest : List Drive), s.cmdReady = false →
    step { s with driver := .manual (⟨true, w, ready⟩ :: rest) } =
      step { s with driver := .manual (⟨false, 0#48, ready⟩ :: rest) }

/-- R202: an accepted command eventually completes, with the response of its word, if `rst` stays 0. -/
def Obligations.AcceptedCommandCompletes : Prop :=
  ∀ s : State, s.mem.constant = true → s.busy = true → s.rspv = false → s.rstIn = [] →
    ∃ (n : Nat) (t : State),
      Host.Core.run core n s = .next t ∧ Answered t (answer s.latched)

/-- R63: one whole transaction while `rst` stays 0. A host presents a word to an idle block: after finitely many edges
the response of that word stands on the response port, and an edge at which the host is ready takes it and leaves
the block idle and ready for a command, with its tables unchanged. -/
def Obligations.TransactionReturnsTheAnswer : Prop :=
  ∀ (s : State) (w : Command), s.mem.constant = true → s.busy = false → s.rspv = false → s.rstIn = [] →
    s.driver = .manual [⟨true, w, false⟩] →
    ∃ (n : Nat) (t : State),
      Host.Core.run core n s = .next t ∧ t.rspPort = some (answer w) ∧
        ∃ t', step { t with driver := .manual [⟨false, 0#48, true⟩] } = .next t' ∧ t'.rspv = false ∧
          t'.busy = false ∧ t'.cmdReady = true ∧ SameTables s t'

/-- R197, the host's side: a stream host holds `cmd` and `cmd_valid` until its command is accepted. It does so at an edge
with `cmd_ready = 0` too, at which R195 would have no command presented (the model's choice, log entry 23). -/
def Obligations.StreamHostHoldsItsCommand : Prop :=
  ∀ s t : State, step s = .next t → s.accepts = false →
    (∀ h, s.driver = .encode h → h.phase = .presenting → driverPins t.driver = driverPins s.driver) ∧
    (∀ h, s.driver = .decode h → h.phase = .presenting → driverPins t.driver = driverPins s.driver)

/-! ## Streams -/

/-- R142: the three steps for an incoming chunk and the byte-by-byte statement of the same are equal, and the
carry stays below 4 (R141). -/
def Obligations.ChunkStepsEqualByteByByte : Prop :=
  ∀ carry chunk : List Byte, carry.length ≤ 3 →
    encodeChunk carry chunk = encodeByByte carry chunk ∧ (encodeChunk carry chunk).2.length ≤ 3

/-- R144: the encoded text does not depend on the chunks; it is the five characters of each full group of four bytes,
in order, then those of the rest, and its length is `5*(n div 4)`, plus `n mod 4 + 1` when that remainder is not 0. -/
def Obligations.EncodingDoesNotDependOnChunks : Prop :=
  ∀ chunks : List (List Byte),
    let bs := chunks.flatten
    let n := bs.length
    encodeStream chunks =
        ((List.range (n / 4)).flatMap fun g => encodeBlock ((bs.drop (4 * g)).take 4)) ++
          (if n % 4 = 0 then [] else encodeBlock (bs.drop (4 * (n / 4)))) ∧
      encodeStream chunks = encodeText bs ∧
      (encodeStream chunks).length = 5 * (n / 4) + (if n % 4 = 0 then 0 else n % 4 + 1)

/-- R145, R153: the filter drops exactly the six codes 0x20, 0x09, 0x0A, 0x0D, 0x0B and 0x0C, none of which is in the
alphabet, and these codes inserted anywhere do not change what a text decodes to. -/
def Obligations.WhitespaceDoesNotMatter : Prop :=
  let white := [0x20#8, 0x09#8, 0x0A#8, 0x0D#8, 0x0B#8, 0x0C#8]
  (∀ c : Byte, isWhitespace c = true ↔ c ∈ white) ∧
    (∀ c ∈ white, ¬InAlphabet c) ∧
    (∀ input : List Byte, dropWhitespace input = input.filter fun c => !white.contains c) ∧
    ∀ a ws b : List Byte, (∀ c ∈ ws, c ∈ white) → decodeText (a ++ ws ++ b) = decodeText (a ++ b)

/-- R151: the outcome of a stream decode, with `T` the input without whitespace and `m` its length: the first
character not in the alphabet that falls in a block of at least 2 characters ends it with its position; else
`TruncatedInput` when `m mod 5 = 1`; else success. What was written is the bytes of the blocks before the end. -/
def Obligations.DecodeOutcomes : Prop :=
  ∀ input : List Byte,
    let cs := dropWhitespace input
    let m := cs.length
    let blockBytes := fun g : Nat => rspBytes (answer (decbWord ((cs.drop (5 * g)).take 5)))
    let written := fun n : Nat => (List.range n).flatMap blockBytes
    (∀ p, p < m → ¬InAlphabet (cs.getD p 0#8) → (∀ q, q < p → InAlphabet (cs.getD q 0#8)) →
      ¬(p + 1 = m ∧ m % 5 = 1) →
      decodeText input =
        ⟨written (p / 5), .invalidCharacter (cs.getD p 0#8) ((cs.drop (5 * (p / 5))).take 5) p⟩) ∧
    ((∀ q, q < 5 * (m / 5) → InAlphabet (cs.getD q 0#8)) → m % 5 = 1 →
      decodeText input = ⟨written (m / 5), .truncatedInput⟩) ∧
    ((∀ q, q < m → InAlphabet (cs.getD q 0#8)) → m % 5 ≠ 1 →
      decodeText input = ⟨written ((m + 4) / 5), .ok⟩ ∧
        (decodeText input).out.length = 4 * (m / 5) + (if m % 5 = 0 then 0 else m % 5 - 1))

/-- R153: the round trip of streams: decoding the encoding of any bytes, in any chunks, gives the bytes back. -/
def Obligations.StreamRoundTrip : Prop :=
  ∀ chunks : List (List Byte), decodeText (encodeStream chunks) = ⟨chunks.flatten, .ok⟩

/-- The stream encoder of R140 to R143, driving the ports of an idle block edge by edge while `rst` stays 0, ends
its operation with the text of R144 written. -/
def Obligations.EncodeHostReachesTheText : Prop :=
  ∀ (s : State) (chunks : List (List Byte)), s.mem.constant = true → s.busy = false → s.rspv = false →
    s.rstIn = [] → s.driver = .encode (encodeStart chunks) →
    ∃ (n : Nat) (t : State) (h : EncodeHost),
      Host.Core.run core n s = .next t ∧ t.driver = .encode h ∧ h.phase = .finished .ok ∧
        h.out = encodeText chunks.flatten

/-- The stream decoder of R145 to R150, driving the ports of an idle block edge by edge while `rst` stays 0, ends
its operation with the result and the output of R151. -/
def Obligations.DecodeHostReachesTheOutcome : Prop :=
  ∀ (s : State) (chunks : List (List Byte)), s.mem.constant = true → s.busy = false → s.rspv = false →
    s.rstIn = [] → s.driver = .decode (decodeStart chunks) →
    ∃ (n : Nat) (t : State) (h : DecodeHost),
      Host.Core.run core n s = .next t ∧ t.driver = .decode h ∧
        h.phase = .finished (decodeText chunks.flatten).result ∧ h.out = (decodeText chunks.flatten).out

/-- R77, R79: the notation assembles to the words whose fields it names, an ignored field 0. `ENCODE` of `n` bytes stands
for the `n div 4` full blocks in order and, when `n mod 4` is not 0, the short block of the rest. `DECODE` of a text
stands for the `m div 5` full blocks of its `m` non-whitespace characters and, when `m mod 5` is 2 or more, the short
block of the rest, up to and with the first command whose response is not `OK`; with one character left over and every
response `OK`, the host's result is `TruncatedInput`. -/
def Obligations.NotationAssembles : Prop :=
  let encb := fun (n : BitVec 4) (bs : List Byte) =>
    encode (.encb n 0#8 (bs.getD 0 0#8) (bs.getD 1 0#8) (bs.getD 2 0#8) (bs.getD 3 0#8))
  let decb := fun (n : BitVec 4) (cs : List Byte) =>
    encode (.decb n ⟨cs.getD 0 0#8, cs.getD 1 0#8, cs.getD 2 0#8, cs.getD 3 0#8, cs.getD 4 0#8⟩)
  (∀ idx : Byte, assemble (.a2c idx.toNat) = some [encode (.a2c 0#4 0#32 idx)]) ∧
  (∀ chr : Byte, assemble (.c2a chr.toNat) = some [encode (.c2a 0#4 0#32 chr)]) ∧
  (∀ v : Value, assemble (.encw v.toNat) = some [encode (.encw 0#4 0#8 v)]) ∧
  (∀ x : Five Byte, assemble (.decw ((laneList x).map BitVec.toNat)) = some [encode (.decw 0#4 x)]) ∧
  (∀ bs : List Byte, 1 ≤ bs.length → bs.length ≤ 4 →
    assemble (.encb (bs.map BitVec.toNat)) = some [encb (BitVec.ofNat 4 bs.length) bs]) ∧
  (∀ (n : BitVec 4) (bs : List Byte), bs.length ≤ 4 →
    assemble (.encbN n.toNat (bs.map BitVec.toNat)) = some [encb n bs]) ∧
  (∀ cs : List Byte, 2 ≤ cs.length → cs.length ≤ 5 →
    assemble (.decb (cs.map BitVec.toNat)) = some [decb (BitVec.ofNat 4 cs.length) cs]) ∧
  (∀ (n : BitVec 4) (cs : List Byte), cs.length ≤ 5 →
    assemble (.decbN n.toNat (cs.map BitVec.toNat)) = some [decb n cs]) ∧
  (∀ w : Command, assemble (.word w.toNat) = some [w]) ∧
  (∀ bs : List Byte,
    let n := bs.length
    assemble (.encode (bs.map BitVec.toNat)) =
      some (((List.range (n / 4)).map fun g => encb 4#4 ((bs.drop (4 * g)).take 4)) ++
        (if n % 4 = 0 then [] else [encb (BitVec.ofNat 4 (n % 4)) (bs.drop (4 * (n / 4)))]))) ∧
  (∀ text : List Byte,
    let cs := dropWhitespace text
    let m := cs.length
    let all := ((List.range (m / 5)).map fun g => decb 5#4 ((cs.drop (5 * g)).take 5)) ++
      (if m % 5 ≤ 1 then [] else [decb (BitVec.ofNat 4 (m % 5)) (cs.drop (5 * (m / 5)))])
    ∃ ws rest, assemble (.decode (text.map BitVec.toNat)) = some ws ∧ all = ws ++ rest ∧
      (∀ w ∈ ws.dropLast, rspStatus (answer w) = 0#4) ∧
      (rest ≠ [] → ∃ w, ws.getLast? = some w ∧ rspStatus (answer w) ≠ 0#4) ∧
      (m % 5 = 1 → (∀ w ∈ ws, rspStatus (answer w) = 0#4) → (decodeText text).result = .truncatedInput))

/-- R148: with one character left in its carry at the end of input the stream decoder ends with `TruncatedInput` and issues
no command; the block's response to a `DECB` of one character, `MalformedLength`, ends it with the same result and the
same output; and the character need not be in the alphabet on either route. -/
def Obligations.TruncatedInputByEitherRoute : Prop :=
  (∀ (s t : State) (h : DecodeHost) (c : Byte), s.driver = .decode h → h.phase = .reading → h.chunk = [] →
    h.chunks = [] → h.dc = [c] → step s = .next t →
    (driverPins s.driver).cmdValid = false ∧ t.driver = .decode { h with phase := .finished .truncatedInput }) ∧
  (∀ (s t : State) (h : DecodeHost) (c : Byte), s.driver = .decode h → h.phase = .awaiting → h.dc = [c] →
    s.rst = false → s.rspv = true → s.rsp = answer (decbWord [c]) → step s = .next t →
    t.driver = .decode { h with phase := .finished .truncatedInput }) ∧
  (∀ c : Byte, answer (decbWord [c]) = errorWord .malformedLength 0#4 0#8) ∧
  (∀ text : List Byte, (dropWhitespace text).length = 1 → decodeText text = ⟨[], .truncatedInput⟩)
end

