-- ==== Sys2Proof/Laws/State.lean ====
section
/-! SUPPORT. One lemma per field per update of the state, true by definition, so that no proof unfolds a record
update. -/

namespace Sys2Proof.Machine.State

/-! ## Completing a command (10_state.md R23) -/

@[simp] theorem complete_mem (s : State) (w : ResponseWord) : (s.complete w).mem = s.mem := rfl
@[simp] theorem complete_rsp (s : State) (w : ResponseWord) : (s.complete w).rsp = w := rfl
@[simp] theorem complete_rspv (s : State) (w : ResponseWord) : (s.complete w).rspv = true := rfl
@[simp] theorem complete_busy (s : State) (w : ResponseWord) : (s.complete w).busy = false := rfl
@[simp] theorem complete_num (s : State) (w : ResponseWord) : (s.complete w).num = s.num := rfl
@[simp] theorem complete_dg (s : State) (w : ResponseWord) : (s.complete w).dg = s.dg := rfl
@[simp] theorem complete_chr (s : State) (w : ResponseWord) : (s.complete w).chr = s.chr := rfl
@[simp] theorem complete_opr (s : State) (w : ResponseWord) : (s.complete w).opr = s.opr := rfl
@[simp] theorem complete_lenr (s : State) (w : ResponseWord) : (s.complete w).lenr = s.lenr := rfl
@[simp] theorem complete_cnt (s : State) (w : ResponseWord) : (s.complete w).cnt = s.cnt := rfl
@[simp] theorem complete_wait (s : State) (w : ResponseWord) : (s.complete w).wait = 0 := rfl
@[simp] theorem complete_draws (s : State) (w : ResponseWord) : (s.complete w).draws = s.draws := rfl
@[simp] theorem complete_rstIn (s : State) (w : ResponseWord) : (s.complete w).rstIn = s.rstIn := rfl
@[simp] theorem complete_driver (s : State) (w : ResponseWord) : (s.complete w).driver = s.driver := rfl

/-! ## Latching a command word (R25) -/

@[simp] theorem latch_mem (s : State) (w : Command) : (s.latch w).mem = s.mem := rfl
@[simp] theorem latch_rsp (s : State) (w : Command) : (s.latch w).rsp = s.rsp := rfl
@[simp] theorem latch_rspv (s : State) (w : Command) : (s.latch w).rspv = s.rspv := rfl
@[simp] theorem latch_busy (s : State) (w : Command) : (s.latch w).busy = s.busy := rfl
@[simp] theorem latch_num (s : State) (w : Command) : (s.latch w).num = s.num := rfl
@[simp] theorem latch_dg (s : State) (w : Command) : (s.latch w).dg = s.dg := rfl
@[simp] theorem latch_chr (s : State) (w : Command) : (s.latch w).chr = charLanes (commandData w) := rfl
@[simp] theorem latch_opr (s : State) (w : Command) : (s.latch w).opr = commandOp w := rfl
@[simp] theorem latch_lenr (s : State) (w : Command) : (s.latch w).lenr = commandLen w := rfl
@[simp] theorem latch_cnt (s : State) (w : Command) : (s.latch w).cnt = s.cnt := rfl
@[simp] theorem latch_wait (s : State) (w : Command) : (s.latch w).wait = s.wait := rfl
@[simp] theorem latch_draws (s : State) (w : Command) : (s.latch w).draws = s.draws := rfl
@[simp] theorem latch_rstIn (s : State) (w : Command) : (s.latch w).rstIn = s.rstIn := rfl
@[simp] theorem latch_driver (s : State) (w : Command) : (s.latch w).driver = s.driver := rfl

/-! ## Accepting a command (R23) -/

@[simp] theorem accept_mem (s : State) (w : Command) : (s.accept w).mem = s.mem := rfl
@[simp] theorem accept_rsp (s : State) (w : Command) : (s.accept w).rsp = s.rsp := rfl
@[simp] theorem accept_rspv (s : State) (w : Command) : (s.accept w).rspv = s.rspv := rfl
@[simp] theorem accept_busy (s : State) (w : Command) : (s.accept w).busy = true := rfl
@[simp] theorem accept_num (s : State) (w : Command) : (s.accept w).num = s.num := rfl
@[simp] theorem accept_dg (s : State) (w : Command) : (s.accept w).dg = s.dg := rfl
@[simp] theorem accept_chr (s : State) (w : Command) : (s.accept w).chr = charLanes (commandData w) := rfl
@[simp] theorem accept_opr (s : State) (w : Command) : (s.accept w).opr = commandOp w := rfl
@[simp] theorem accept_lenr (s : State) (w : Command) : (s.accept w).lenr = commandLen w := rfl
@[simp] theorem accept_cnt (s : State) (w : Command) : (s.accept w).cnt = s.cnt := rfl
@[simp] theorem accept_wait (s : State) (w : Command) : (s.accept w).wait = Config.latency s.draws w := rfl
@[simp] theorem accept_draws (s : State) (w : Command) : (s.accept w).draws = s.draws + 1 := rfl
@[simp] theorem accept_rstIn (s : State) (w : Command) : (s.accept w).rstIn = s.rstIn := rfl
@[simp] theorem accept_driver (s : State) (w : Command) : (s.accept w).driver = s.driver := rfl

/-! ## Taking a response (R23) -/

@[simp] theorem take_mem (s : State) : (s.take).mem = s.mem := rfl
@[simp] theorem take_rsp (s : State) : (s.take).rsp = s.rsp := rfl
@[simp] theorem take_rspv (s : State) : (s.take).rspv = false := rfl
@[simp] theorem take_busy (s : State) : (s.take).busy = s.busy := rfl
@[simp] theorem take_num (s : State) : (s.take).num = s.num := rfl
@[simp] theorem take_dg (s : State) : (s.take).dg = s.dg := rfl
@[simp] theorem take_chr (s : State) : (s.take).chr = s.chr := rfl
@[simp] theorem take_opr (s : State) : (s.take).opr = s.opr := rfl
@[simp] theorem take_lenr (s : State) : (s.take).lenr = s.lenr := rfl
@[simp] theorem take_cnt (s : State) : (s.take).cnt = s.cnt := rfl
@[simp] theorem take_wait (s : State) : (s.take).wait = s.wait := rfl
@[simp] theorem take_draws (s : State) : (s.take).draws = s.draws := rfl
@[simp] theorem take_rstIn (s : State) : (s.take).rstIn = s.rstIn := rfl
@[simp] theorem take_driver (s : State) : (s.take).driver = s.driver := rfl

/-! ## The reset edge (R191) -/

@[simp] theorem resetEdge_mem (s : State) : (s.resetEdge).mem = s.mem := rfl
@[simp] theorem resetEdge_rsp (s : State) : (s.resetEdge).rsp = Config.rstRsp s.draws := rfl
@[simp] theorem resetEdge_rspv (s : State) : (s.resetEdge).rspv = false := rfl
@[simp] theorem resetEdge_busy (s : State) : (s.resetEdge).busy = false := rfl
@[simp] theorem resetEdge_num (s : State) : (s.resetEdge).num = Config.rstNum s.draws := rfl
@[simp] theorem resetEdge_dg (s : State) : (s.resetEdge).dg = Config.rstDg s.draws := rfl
@[simp] theorem resetEdge_chr (s : State) : (s.resetEdge).chr = Config.rstChr s.draws := rfl
@[simp] theorem resetEdge_opr (s : State) : (s.resetEdge).opr = Config.rstOpr s.draws := rfl
@[simp] theorem resetEdge_lenr (s : State) : (s.resetEdge).lenr = Config.rstLenr s.draws := rfl
@[simp] theorem resetEdge_cnt (s : State) : (s.resetEdge).cnt = Config.rstCnt s.draws := rfl
@[simp] theorem resetEdge_wait (s : State) : (s.resetEdge).wait = 0 := rfl
@[simp] theorem resetEdge_draws (s : State) : (s.resetEdge).draws = s.draws + 1 := rfl
@[simp] theorem resetEdge_rstIn (s : State) : (s.resetEdge).rstIn = s.rstIn := rfl
@[simp] theorem resetEdge_driver (s : State) : (s.resetEdge).driver = s.driver := rfl

/-! ## The outside after an edge -/

@[simp] theorem outsideEdge_mem (s : State) (t : State) : (s.outsideEdge t).mem = t.mem := rfl
@[simp] theorem outsideEdge_rsp (s : State) (t : State) : (s.outsideEdge t).rsp = t.rsp := rfl
@[simp] theorem outsideEdge_rspv (s : State) (t : State) : (s.outsideEdge t).rspv = t.rspv := rfl
@[simp] theorem outsideEdge_busy (s : State) (t : State) : (s.outsideEdge t).busy = t.busy := rfl
@[simp] theorem outsideEdge_num (s : State) (t : State) : (s.outsideEdge t).num = t.num := rfl
@[simp] theorem outsideEdge_dg (s : State) (t : State) : (s.outsideEdge t).dg = t.dg := rfl
@[simp] theorem outsideEdge_chr (s : State) (t : State) : (s.outsideEdge t).chr = t.chr := rfl
@[simp] theorem outsideEdge_opr (s : State) (t : State) : (s.outsideEdge t).opr = t.opr := rfl
@[simp] theorem outsideEdge_lenr (s : State) (t : State) : (s.outsideEdge t).lenr = t.lenr := rfl
@[simp] theorem outsideEdge_cnt (s : State) (t : State) : (s.outsideEdge t).cnt = t.cnt := rfl
@[simp] theorem outsideEdge_wait (s : State) (t : State) : (s.outsideEdge t).wait = t.wait := rfl
@[simp] theorem outsideEdge_draws (s : State) (t : State) : (s.outsideEdge t).draws = t.draws := rfl
@[simp] theorem outsideEdge_rstIn (s : State) (t : State) : (s.outsideEdge t).rstIn = s.rstIn.tail := rfl
@[simp] theorem outsideEdge_driver (s : State) (t : State) : (s.outsideEdge t).driver = driverMove s.rst s.accepts s.takenWord s.driver := rfl

/-! ## A command put in flight (log entry 6) -/

@[simp] theorem placeCommand_mem (s : State) (w : Command) : (s.placeCommand w).mem = s.mem := rfl
@[simp] theorem placeCommand_rsp (s : State) (w : Command) : (s.placeCommand w).rsp = s.rsp := rfl
@[simp] theorem placeCommand_rspv (s : State) (w : Command) : (s.placeCommand w).rspv = false := rfl
@[simp] theorem placeCommand_busy (s : State) (w : Command) : (s.placeCommand w).busy = true := rfl
@[simp] theorem placeCommand_num (s : State) (w : Command) : (s.placeCommand w).num = s.num := rfl
@[simp] theorem placeCommand_dg (s : State) (w : Command) : (s.placeCommand w).dg = s.dg := rfl
@[simp] theorem placeCommand_chr (s : State) (w : Command) : (s.placeCommand w).chr = charLanes (commandData w) := rfl
@[simp] theorem placeCommand_opr (s : State) (w : Command) : (s.placeCommand w).opr = commandOp w := rfl
@[simp] theorem placeCommand_lenr (s : State) (w : Command) : (s.placeCommand w).lenr = commandLen w := rfl
@[simp] theorem placeCommand_cnt (s : State) (w : Command) : (s.placeCommand w).cnt = s.cnt := rfl
@[simp] theorem placeCommand_wait (s : State) (w : Command) : (s.placeCommand w).wait = 0 := rfl
@[simp] theorem placeCommand_draws (s : State) (w : Command) : (s.placeCommand w).draws = s.draws := rfl
@[simp] theorem placeCommand_rstIn (s : State) (w : Command) : (s.placeCommand w).rstIn = [] := rfl
@[simp] theorem placeCommand_driver (s : State) (w : Command) : (s.placeCommand w).driver = s.driver := rfl

/-! ## One step of the encoder (41_encoder.md R101) -/

@[simp] theorem encStep_mem (s : State) (i : Fin 5) : (s.encStep i).mem = s.mem := rfl
@[simp] theorem encStep_rsp (s : State) (i : Fin 5) : (s.encStep i).rsp = s.rsp := rfl
@[simp] theorem encStep_rspv (s : State) (i : Fin 5) : (s.encStep i).rspv = s.rspv := rfl
@[simp] theorem encStep_busy (s : State) (i : Fin 5) : (s.encStep i).busy = s.busy := rfl
@[simp] theorem encStep_num (s : State) (i : Fin 5) : (s.encStep i).num = BitVec.ofNat 32 (s.num.toNat / 85) := rfl
@[simp] theorem encStep_dg (s : State) (i : Fin 5) : (s.encStep i).dg = laneSet s.dg i (BitVec.ofNat 7 (s.num.toNat % 85)) := rfl
@[simp] theorem encStep_chr (s : State) (i : Fin 5) : (s.encStep i).chr = s.chr := rfl
@[simp] theorem encStep_opr (s : State) (i : Fin 5) : (s.encStep i).opr = s.opr := rfl
@[simp] theorem encStep_lenr (s : State) (i : Fin 5) : (s.encStep i).lenr = s.lenr := rfl
@[simp] theorem encStep_cnt (s : State) (i : Fin 5) : (s.encStep i).cnt = s.cnt + 1#3 := rfl
@[simp] theorem encStep_wait (s : State) (i : Fin 5) : (s.encStep i).wait = s.wait := rfl
@[simp] theorem encStep_draws (s : State) (i : Fin 5) : (s.encStep i).draws = s.draws := rfl
@[simp] theorem encStep_rstIn (s : State) (i : Fin 5) : (s.encStep i).rstIn = s.rstIn := rfl
@[simp] theorem encStep_driver (s : State) (i : Fin 5) : (s.encStep i).driver = s.driver := rfl

end Sys2Proof.Machine.State
end

