-- ==== Sys2Proof/Laws/Tables.lean ====
section
/-! SUPPORT. The tables: reads of a memory that holds its constants, and the facts of 20_memory.md R43 about the
constants. -/

namespace Sys2Proof.Machine

theorem forwardTable_length : forwardTable.length = 85 := by decide

theorem reverseTable_length : reverseTable.length = 256 := by decide +kernel

theorem fwdUnlisted_of_lt {a : Nat} (h : a < 85) : fwdUnlisted a = some (fwdConst a) := by
  have : a < forwardTable.length := by rw [forwardTable_length]; exact h
  simp [fwdUnlisted, fwdConst, this]

theorem fwdUnlisted_of_ge {a : Nat} (h : 85 ≤ a) : fwdUnlisted a = none := by
  simp [fwdUnlisted, forwardTable_length, h]

theorem revUnlisted_byte (c : Byte) : revUnlisted c.toNat = some (revConst c) := by
  have : c.toNat < reverseTable.length := by rw [reverseTable_length]; exact c.isLt
  simp [revUnlisted, revConst, this]

/-- Every cell of `FWD` from 0 to 84 reads, whatever is listed (R40, R44). -/
theorem readFwd_of_lt (m : Memory) {a : Nat} (h : a < 85) :
    m.readFwd a = some ((lookupCell m.fwd a).getD (fwdConst a)) := by
  simp [Memory.readFwd, fwdUnlisted_of_lt h]

theorem readFwd_of_ge (m : Memory) {a : Nat} (h : 85 ≤ a) : m.readFwd a = none := by
  simp [Memory.readFwd, fwdUnlisted_of_ge h]

theorem Memory.fwd_of_constant {m : Memory} (h : m.constant = true) : m.fwd = [] := by
  simp only [Memory.constant, Bool.and_eq_true, List.isEmpty_iff] at h
  exact h.1

theorem Memory.rev_of_constant {m : Memory} (h : m.constant = true) : m.rev = [] := by
  simp only [Memory.constant, Bool.and_eq_true, List.isEmpty_iff] at h
  exact h.2

/-- The canonical form of a memory that lists nothing. -/
theorem Memory.wf_of_constant {m : Memory} (h : m.constant = true) : m.wf = true := by
  rw [Memory.wf, Memory.fwd_of_constant h, Memory.rev_of_constant h]
  rfl

theorem readFwd_constant {m : Memory} (h : m.constant = true) {a : Nat} (ha : a < 85) :
    m.readFwd a = some (fwdConst a) := by
  rw [readFwd_of_lt m ha, Memory.fwd_of_constant h]
  rfl

theorem readRev_constant {m : Memory} (h : m.constant = true) (c : Byte) : m.readRev c = revConst c := by
  simp [Memory.readRev, Memory.rev_of_constant h, lookupCell, revUnlisted_byte]

/-! ## The constants -/

/-- R43 (b). -/
theorem revConst_fwdConst : ∀ i : Fin 85, (revConst (fwdConst i.val)).toNat = i.val := by decide +kernel

/-- R43 (a): no character stands twice. -/
theorem fwdConst_injective {i j : Fin 85} (h : fwdConst i.val = fwdConst j.val) : i = j := by
  apply Fin.ext
  rw [← revConst_fwdConst i, h, revConst_fwdConst j]

/-- R43 (c), (d), by number. -/
theorem fwdConst_revConst_all :
    ∀ n : Fin 256, revConst (BitVec.ofFin n) ≠ 0xFF#8 →
      (revConst (BitVec.ofFin n)).toNat < 85 ∧ fwdConst (revConst (BitVec.ofFin n)).toNat = BitVec.ofFin n := by
  decide +kernel

/-- R43 (d). -/
theorem revConst_lt {c : Byte} (h : InAlphabet c) : (revConst c).toNat < 85 := (fwdConst_revConst_all c.toFin h).1

/-- R43 (c). -/
theorem fwdConst_revConst {c : Byte} (h : InAlphabet c) : fwdConst (revConst c).toNat = c :=
  (fwdConst_revConst_all c.toFin h).2

/-- R43 (e). -/
theorem fwdConst_printable : ∀ i : Fin 85, 0x21 ≤ (fwdConst i.val).toNat ∧ (fwdConst i.val).toNat ≤ 0x7E := by
  decide +kernel

/-- R43 (f). -/
theorem fwdConst_named : fwdConst 0 = 0x30#8 ∧ fwdConst 84 = 0x7E#8 ∧ fwdConst 61 = 0x7A#8 := by decide

theorem inAlphabet_fwdConst {i : Nat} (h : i < 85) : InAlphabet (fwdConst i) := by
  intro hc
  have hi : (revConst (fwdConst i)).toNat = i := revConst_fwdConst ⟨i, h⟩
  rw [hc, show (0xFF#8).toNat = 255 from rfl] at hi
  omega

theorem revConst_fwdConst_eq {i : Nat} (h : i < 85) : revConst (fwdConst i) = BitVec.ofNat 8 i := by
  have hi : (revConst (fwdConst i)).toNat = i := revConst_fwdConst ⟨i, h⟩
  apply BitVec.eq_of_toNat_eq
  rw [hi, BitVec.toNat_ofNat]
  omega

end Sys2Proof.Machine
end

