-- ==== Sys2Proof/Laws/Iterations.lean ====
section
/-! SUPPORT. What the two iterations leave (41_encoder.md R101, R103; 42_decoder.md R120, R122). -/

namespace Sys2Proof.Machine

/-! ## The encoder -/

theorem digit_toNat (n : Nat) : (BitVec.ofNat 7 (n % 85)).toNat = n % 85 := by
  rw [BitVec.toNat_ofNat]
  omega

theorem digitAt_lt (v i : Nat) : digitAt v i < 85 := Nat.mod_lt _ (by decide)

/-- The digits of a value as registers. -/
def digitsOf (v : Nat) : Five Digit :=
  ⟨BitVec.ofNat 7 (digitAt v 0), BitVec.ofNat 7 (digitAt v 1), BitVec.ofNat 7 (digitAt v 2),
    BitVec.ofNat 7 (digitAt v 3), BitVec.ofNat 7 (digitAt v 4)⟩

/-- Everything the encoder's iteration does (R101): digits in `DG`, `NUM` divided away, five steps counted. -/
theorem encDigits_eq (s : State) (v : Value) :
    s.encDigits v = { s with num := 0#32, dg := digitsOf v.toNat, cnt := 5#3 } := by
  have e (k : Nat) : (BitVec.ofNat 32 (v.toNat / k)).toNat = v.toNat / k := by
    rw [BitVec.toNat_ofNat, Nat.mod_eq_of_lt (Nat.lt_of_le_of_lt (Nat.div_le_self ..) v.isLt)]
  have e5 : v.toNat / 4437053125 = 0 := by omega
  simp only [State.encDigits, List.foldl, State.encStep, laneSet, Config.base, Nat.div_div_eq_div_mul,
    Nat.reduceMul, e, e5, digitsOf, digitAt, Nat.reduceSub, Nat.reducePow, Nat.div_one]
  rfl

/-- The digits are the value (R103 (a)). -/
theorem digits_value (v : Value) :
    v.toNat =
      digitAt v.toNat 0 * 85 ^ 4 + digitAt v.toNat 1 * 85 ^ 3 + digitAt v.toNat 2 * 85 ^ 2 +
        digitAt v.toNat 3 * 85 + digitAt v.toNat 4 := by
  simp only [digitAt, Nat.reduceSub, Nat.reducePow, Nat.div_one]
  omega

/-! ## The decoder -/

/-- The exact value of five digit registers (R120). -/
def exactDigits (d : Five Digit) : Nat :=
  d.l0.toNat * 85 ^ 4 + d.l1.toNat * 85 ^ 3 + d.l2.toNat * 85 ^ 2 + d.l3.toNat * 85 + d.l4.toNat

/-- Everything one step of the decoder's iteration does from an exact accumulator `v`, when the next value is below 2^32:
the next value is exact, nothing overflows, the step is counted (R120, R122 (a)). -/
theorem decStep_exact (p : State × Bool) (i : Fin 5) (v : Nat) (hn : p.1.num = BitVec.ofNat 32 v) (hv : v < 2 ^ 32)
    (h : v * 85 + (laneGet p.1.dg i).toNat < 2 ^ 32) :
    State.decStep p i =
      ({ p.1 with num := BitVec.ofNat 32 (v * 85 + (laneGet p.1.dg i).toNat), cnt := p.1.cnt + 1#3 }, p.2) := by
  have e : accumulate p.1.num (laneGet p.1.dg i) = v * 85 + (laneGet p.1.dg i).toNat := by
    rw [hn, accumulate, BitVec.toNat_ofNat, Nat.mod_eq_of_lt hv]
  have f : accumulateOverflows p.1.num (laneGet p.1.dg i) = false := by
    rw [accumulateOverflows, e]
    exact decide_eq_false (by omega)
  rw [State.decStep, e, f, Bool.or_false]

/-- Everything the decoder's iteration does (R120) when each register holds a digit: the exact value modulo 2^32 in
`NUM`, `ovf` when it is 2^32 or more, five steps counted. -/
theorem decDigits_eq (s : State) (d : Five Digit)
    (h : d.l0.toNat ≤ 84 ∧ d.l1.toNat ≤ 84 ∧ d.l2.toNat ≤ 84 ∧ d.l3.toNat ≤ 84 ∧ d.l4.toNat ≤ 84) :
    s.decDigits d =
      ({ s with num := BitVec.ofNat 32 (exactDigits d), dg := d, cnt := 5#3 },
        decide (2 ^ 32 ≤ exactDigits d)) := by
  rcases d with ⟨d0, d1, d2, d3, d4⟩
  simp only at h
  have e0 : accumulate 0#32 d0 = d0.toNat := by simp [accumulate]
  have e1 : accumulate (BitVec.ofNat 32 d0.toNat) d1 = d0.toNat * 85 + d1.toNat := by
    simp only [accumulate, BitVec.toNat_ofNat, Config.base]; omega
  have e2 : accumulate (BitVec.ofNat 32 (d0.toNat * 85 + d1.toNat)) d2 =
      d0.toNat * 7225 + d1.toNat * 85 + d2.toNat := by
    simp only [accumulate, BitVec.toNat_ofNat, Config.base]; omega
  have e3 : accumulate (BitVec.ofNat 32 (d0.toNat * 7225 + d1.toNat * 85 + d2.toNat)) d3 =
      d0.toNat * 614125 + d1.toNat * 7225 + d2.toNat * 85 + d3.toNat := by
    simp only [accumulate, BitVec.toNat_ofNat, Config.base]; omega
  have e4 : accumulate (BitVec.ofNat 32 (d0.toNat * 614125 + d1.toNat * 7225 + d2.toNat * 85 + d3.toNat)) d4 =
      exactDigits ⟨d0, d1, d2, d3, d4⟩ := by
    simp only [accumulate, BitVec.toNat_ofNat, Config.base, exactDigits]; omega
  have f0 : accumulateOverflows 0#32 d0 = false := by
    rw [accumulateOverflows, e0]; exact decide_eq_false (by omega)
  have f1 : accumulateOverflows (BitVec.ofNat 32 d0.toNat) d1 = false := by
    rw [accumulateOverflows, e1]; exact decide_eq_false (by omega)
  have f2 : accumulateOverflows (BitVec.ofNat 32 (d0.toNat * 85 + d1.toNat)) d2 = false := by
    rw [accumulateOverflows, e2]; exact decide_eq_false (by omega)
  have f3 : accumulateOverflows (BitVec.ofNat 32 (d0.toNat * 7225 + d1.toNat * 85 + d2.toNat)) d3 = false := by
    rw [accumulateOverflows, e3]; exact decide_eq_false (by omega)
  have f4 : accumulateOverflows (BitVec.ofNat 32 (d0.toNat * 614125 + d1.toNat * 7225 + d2.toNat * 85 + d3.toNat))
      d4 = decide (2 ^ 32 ≤ exactDigits ⟨d0, d1, d2, d3, d4⟩) := by
    rw [accumulateOverflows, e4]
  simp only [State.decDigits, List.foldl, State.decStep, laneGet, e0, e1, e2, e3, e4, f0, f1, f2, f3, f4,
    Bool.false_or]
  congr 1

end Sys2Proof.Machine
end

