-- ==== Sys2Proof/Laws/Words.lean ====
section
/-! SUPPORT. Bit fields as exact numbers: the command word (30_encoding.md R61), the lanes of `DATA` (R64 to R66) and
the response word (R62), each read back from what was packed and each word rebuilt from its fields. -/

namespace Sys2Proof.Machine

/-! ## Concatenation and slices on numbers -/

theorem toNat_append_add {m n : Nat} (x : BitVec m) (y : BitVec n) :
    (x ++ y).toNat = x.toNat * 2 ^ n + y.toNat := by
  rw [BitVec.toNat_append, ← Nat.shiftLeft_add_eq_or_of_lt y.isLt, Nat.shiftLeft_eq]

theorem toNat_slice {n : Nat} (x : BitVec n) (s k : Nat) : (x.extractLsb' s k).toNat = x.toNat / 2 ^ s % 2 ^ k := by
  rw [BitVec.extractLsb'_toNat, Nat.shiftRight_eq_div_pow]

/-! ## Command words -/

theorem packCommand_toNat (op len : BitVec 4) (d : Data) :
    (packCommand op len d).toNat = op.toNat * 2 ^ 44 + len.toNat * 2 ^ 40 + d.toNat := by
  simp only [packCommand, toNat_append_add]
  omega

@[simp] theorem commandOp_packCommand (op len : BitVec 4) (d : Data) : commandOp (packCommand op len d) = op := by
  apply BitVec.eq_of_toNat_eq
  rw [commandOp, toNat_slice, packCommand_toNat]
  omega

@[simp] theorem commandLen_packCommand (op len : BitVec 4) (d : Data) :
    commandLen (packCommand op len d) = len := by
  apply BitVec.eq_of_toNat_eq
  rw [commandLen, toNat_slice, packCommand_toNat]
  omega

@[simp] theorem commandData_packCommand (op len : BitVec 4) (d : Data) :
    commandData (packCommand op len d) = d := by
  apply BitVec.eq_of_toNat_eq
  rw [commandData, toNat_slice, packCommand_toNat]
  omega

theorem packCommand_fields (w : Command) : packCommand (commandOp w) (commandLen w) (commandData w) = w := by
  apply BitVec.eq_of_toNat_eq
  rw [packCommand_toNat, commandOp, commandLen, commandData, toNat_slice, toNat_slice, toNat_slice]
  omega

/-! ## Lanes -/

theorem packChars_toNat (c : Five Byte) :
    (packChars c).toNat =
      c.l0.toNat * 2 ^ 32 + c.l1.toNat * 2 ^ 24 + c.l2.toNat * 2 ^ 16 + c.l3.toNat * 2 ^ 8 + c.l4.toNat := by
  simp only [packChars, toNat_append_add]
  omega

@[simp] theorem charLanes_packChars (c : Five Byte) : charLanes (packChars c) = c := by
  rcases c with ⟨c0, c1, c2, c3, c4⟩
  simp only [charLanes, Five.mk.injEq]
  refine ⟨?_, ?_, ?_, ?_, ?_⟩ <;> apply BitVec.eq_of_toNat_eq <;> rw [toNat_slice, packChars_toNat] <;>
    simp only <;> omega

@[simp] theorem packChars_charLanes (d : Data) : packChars (charLanes d) = d := by
  apply BitVec.eq_of_toNat_eq
  rw [packChars_toNat]
  simp only [charLanes, toNat_slice]
  omega

theorem charLanes_toNat (d : Data) (i : Fin 5) :
    (laneGet (charLanes d) i).toNat = d.toNat / 2 ^ (32 - 8 * i.val) % 256 := by
  fin_cases i <;> simp [laneGet, charLanes, Nat.shiftRight_eq_div_pow]

@[simp] theorem charLanes_dataOfChars (cs : List Byte) : charLanes (dataOfChars cs) = lanesOf 0#8 cs :=
  charLanes_packChars _

@[simp] theorem charLanes_dataOfBytes (bs : List Byte) : charLanes (dataOfBytes bs) = lanesOf 0#8 (0#8 :: bs) :=
  charLanes_packChars _

/-- `BY(j)` and `CH(j + 1)` are the same bits (R65). -/
theorem byteLanes_eq (d : Data) :
    byteLanes d = [(charLanes d).l1, (charLanes d).l2, (charLanes d).l3, (charLanes d).l4] := rfl

@[simp] theorem byteLanes_dataOfBytes (bs : List Byte) :
    byteLanes (dataOfBytes bs) = [bs.getD 0 0#8, bs.getD 1 0#8, bs.getD 2 0#8, bs.getD 3 0#8] := by
  rw [byteLanes_eq, charLanes_dataOfBytes]
  rfl

/-! ## Response words -/

theorem packResponse_toNat (r : Response) :
    (packResponse r).toNat =
      r.status.toNat * 2 ^ 60 + r.len.toNat * 2 ^ 56 + r.ovf.toNat * 2 ^ 52 + r.errpos.toNat * 2 ^ 48 +
        r.errchar.toNat * 2 ^ 40 + r.data.toNat := by
  have h : (BitVec.ofBool r.ovf).toNat = r.ovf.toNat := by cases r.ovf <;> rfl
  simp only [packResponse, toNat_append_add, h, BitVec.toNat_ofNat]
  omega

theorem ovf_le (b : Bool) : b.toNat ≤ 1 := by cases b <;> decide

@[simp] theorem rspStatus_pack (r : Response) : rspStatus (packResponse r) = r.status := by
  have := ovf_le r.ovf
  apply BitVec.eq_of_toNat_eq
  rw [rspStatus, toNat_slice, packResponse_toNat]
  omega

@[simp] theorem rspLen_pack (r : Response) : rspLen (packResponse r) = r.len := by
  have := ovf_le r.ovf
  apply BitVec.eq_of_toNat_eq
  rw [rspLen, toNat_slice, packResponse_toNat]
  omega

@[simp] theorem rspReserved_pack (r : Response) : rspReserved (packResponse r) = 0#3 := by
  have := ovf_le r.ovf
  apply BitVec.eq_of_toNat_eq
  rw [rspReserved, toNat_slice, packResponse_toNat]
  simp only [BitVec.toNat_ofNat]
  omega

@[simp] theorem rspOvf_pack (r : Response) : rspOvf (packResponse r) = r.ovf := by
  have hb : (packResponse r).toNat / 2 ^ 52 % 2 = r.ovf.toNat := by
    have := ovf_le r.ovf
    rw [packResponse_toNat]
    omega
  have ht : (packResponse r).toNat.testBit 52 = decide ((packResponse r).toNat / 2 ^ 52 % 2 = 1) :=
    Nat.testBit_eq_decide_div_mod_eq
  rw [rspOvf, BitVec.getLsbD, ht, hb]
  cases r.ovf <;> rfl

@[simp] theorem rspErrpos_pack (r : Response) : rspErrpos (packResponse r) = r.errpos := by
  apply BitVec.eq_of_toNat_eq
  rw [rspErrpos, toNat_slice, packResponse_toNat]
  omega

@[simp] theorem rspErrchar_pack (r : Response) : rspErrchar (packResponse r) = r.errchar := by
  apply BitVec.eq_of_toNat_eq
  rw [rspErrchar, toNat_slice, packResponse_toNat]
  omega

@[simp] theorem rspData_pack (r : Response) : rspData (packResponse r) = r.data := by
  apply BitVec.eq_of_toNat_eq
  rw [rspData, toNat_slice, packResponse_toNat]
  omega

@[simp] theorem rspStatus_okWord (len : BitVec 4) (d : Data) (o : Bool) : rspStatus (okWord len d o) = 0#4 :=
  rspStatus_pack _

@[simp] theorem rspLen_okWord (len : BitVec 4) (d : Data) (o : Bool) : rspLen (okWord len d o) = len :=
  rspLen_pack _

@[simp] theorem rspReserved_okWord (len : BitVec 4) (d : Data) (o : Bool) : rspReserved (okWord len d o) = 0#3 :=
  rspReserved_pack _

@[simp] theorem rspOvf_okWord (len : BitVec 4) (d : Data) (o : Bool) : rspOvf (okWord len d o) = o :=
  rspOvf_pack _

@[simp] theorem rspErrpos_okWord (len : BitVec 4) (d : Data) (o : Bool) : rspErrpos (okWord len d o) = 0#4 :=
  rspErrpos_pack _

@[simp] theorem rspErrchar_okWord (len : BitVec 4) (d : Data) (o : Bool) : rspErrchar (okWord len d o) = 0#8 :=
  rspErrchar_pack _

@[simp] theorem rspData_okWord (len : BitVec 4) (d : Data) (o : Bool) : rspData (okWord len d o) = d :=
  rspData_pack _

@[simp] theorem rspStatus_errorWord (st : Status) (p : BitVec 4) (c : Byte) :
    rspStatus (errorWord st p c) = statusCode st :=
  rspStatus_pack _

@[simp] theorem rspLen_errorWord (st : Status) (p : BitVec 4) (c : Byte) : rspLen (errorWord st p c) = 0#4 :=
  rspLen_pack _

@[simp] theorem rspReserved_errorWord (st : Status) (p : BitVec 4) (c : Byte) :
    rspReserved (errorWord st p c) = 0#3 :=
  rspReserved_pack _

@[simp] theorem rspOvf_errorWord (st : Status) (p : BitVec 4) (c : Byte) : rspOvf (errorWord st p c) = false :=
  rspOvf_pack _

@[simp] theorem rspErrpos_errorWord (st : Status) (p : BitVec 4) (c : Byte) : rspErrpos (errorWord st p c) = p :=
  rspErrpos_pack _

@[simp] theorem rspErrchar_errorWord (st : Status) (p : BitVec 4) (c : Byte) : rspErrchar (errorWord st p c) = c :=
  rspErrchar_pack _

@[simp] theorem rspData_errorWord (st : Status) (p : BitVec 4) (c : Byte) : rspData (errorWord st p c) = 0#40 :=
  rspData_pack _

end Sys2Proof.Machine
end

