-- ==== Sys2Proof/Laws/Ops.lean ====
section
/-! SUPPORT. One lemma for each shared operation over lists of lanes: the forward lookups of ENCB, the reverse scan of
DECB, the lane check of DECW, and the operand forms (41_encoder.md R106; 42_decoder.md R123, R124). -/

namespace Sys2Proof.Machine

/-! ## Lists of five -/

@[simp] theorem laneList_length {α : Type} (x : Five α) : (laneList x).length = 5 := rfl

theorem laneList_getD {α : Type} (x : Five α) (z : α) (i : Fin 5) : (laneList x).getD i.val z = laneGet x i := by
  fin_cases i <;> rfl

theorem laneGet_lanesOf {α : Type} (z : α) (l : List α) (i : Fin 5) : laneGet (lanesOf z l) i = l.getD i.val z := by
  fin_cases i <;> rfl

theorem laneList_lanesOf_full {α : Type} (z : α) (x : Five α) : lanesOf z (laneList x) = x := rfl

theorem laneList_take_succ {α : Type} (x : Five α) {n : Nat} (h : n < 5) :
    (laneList x).take (n + 1) = (laneList x).take n ++ [laneGet x ⟨n, h⟩] := by
  have : (laneList x)[n]? = some (laneGet x ⟨n, h⟩) := by
    match n, h with
    | 0, _ => rfl
    | 1, _ => rfl
    | 2, _ => rfl
    | 3, _ => rfl
    | 4, _ => rfl
  rw [List.take_add_one, this]
  rfl

/-! ## Forward lookups -/

/-- Digits below 85 all have a cell, whatever the memory lists: the forward lookups succeed. -/
theorem forwardAll_ok (m : Memory) :
    ∀ ds : List Digit, (∀ d ∈ ds, d.toNat < 85) → ∃ cs, m.forwardAll ds = .ok cs ∧ cs.length = ds.length
  | [], _ => ⟨[], rfl, rfl⟩
  | d :: ds, h => by
    obtain ⟨cs, hcs, hl⟩ := forwardAll_ok m ds fun x hx => h x (List.mem_cons_of_mem _ hx)
    refine ⟨(lookupCell m.fwd d.toNat).getD (fwdConst d.toNat) :: cs, ?_, by simp [hl]⟩
    simp only [Memory.forwardAll, readFwd_of_lt m (h d List.mem_cons_self), hcs]

/-- With constant tables they give R41's characters. -/
theorem forwardAll_constant {m : Memory} (hm : m.constant = true) :
    ∀ ds : List Digit, (∀ d ∈ ds, d.toNat < 85) → m.forwardAll ds = .ok (ds.map fun d => fwdConst d.toNat)
  | [], _ => rfl
  | d :: ds, h => by
    have hr := forwardAll_constant hm ds fun x hx => h x (List.mem_cons_of_mem _ hx)
    simp only [Memory.forwardAll, readFwd_constant hm (h d List.mem_cons_self), hr, List.map_cons]

/-! ## The reverse scan -/

/-- Where every character is in the alphabet the scan gives R42's digits. -/
theorem reverseAll_ok {m : Memory} (hm : m.constant = true) :
    ∀ (cs : List Byte) (i : Nat), (∀ c ∈ cs, InAlphabet c) → m.reverseAll i cs = .ok (cs.map revConst)
  | [], _, _ => rfl
  | c :: cs, i, h => by
    have hr := reverseAll_ok hm cs (i + 1) fun x hx => h x (List.mem_cons_of_mem _ hx)
    have hc : revConst c ≠ 0xFF#8 := h c List.mem_cons_self
    simp [Memory.reverseAll, readRev_constant hm, hc, hr]

/-- Otherwise it stops at the first character that is not. -/
theorem reverseAll_error {m : Memory} (hm : m.constant = true) (c : Byte) (rest : List Byte) (hc : ¬InAlphabet c) :
    ∀ (pre : List Byte) (i : Nat), (∀ x ∈ pre, InAlphabet x) →
      m.reverseAll i (pre ++ c :: rest) = .error (i + pre.length, c)
  | [], i, _ => by
    have hv : revConst c = 0xFF#8 := not_not.mp hc
    simp [Memory.reverseAll, readRev_constant hm, hv]
  | x :: pre, i, h => by
    have hr := reverseAll_error hm c rest hc pre (i + 1) fun y hy => h y (List.mem_cons_of_mem _ hy)
    have hx : revConst x ≠ 0xFF#8 := h x List.mem_cons_self
    simp only [List.cons_append, Memory.reverseAll, readRev_constant hm, Config.invalid, hx, if_false, hr]
    simp only [List.length_cons]
    congr 2
    omega

/-! ## The lane check of DECW -/

theorem firstAboveDigit_none : ∀ (xs : List Byte) (i : Nat), (∀ x ∈ xs, x.toNat ≤ 84) → firstAboveDigit i xs = none
  | [], _, _ => rfl
  | x :: xs, i, h => by
    have hx : ¬84 < x.toNat := Nat.not_lt.mpr (h x List.mem_cons_self)
    simp only [firstAboveDigit, hx, if_false]
    exact firstAboveDigit_none xs (i + 1) fun y hy => h y (List.mem_cons_of_mem _ hy)

theorem firstAboveDigit_some (x : Byte) (rest : List Byte) (hx : 84 < x.toNat) :
    ∀ (pre : List Byte) (i : Nat), (∀ y ∈ pre, y.toNat ≤ 84) →
      firstAboveDigit i (pre ++ x :: rest) = some (i + pre.length, x)
  | [], i, _ => by simp [firstAboveDigit, hx]
  | y :: pre, i, h => by
    have hy : ¬84 < y.toNat := Nat.not_lt.mpr (h y List.mem_cons_self)
    have hr := firstAboveDigit_some x rest hx pre (i + 1) fun z hz => h z (List.mem_cons_of_mem _ hz)
    simp only [List.cons_append, firstAboveDigit, hy, if_false, hr, List.length_cons]
    congr 2
    omega

/-- What the check says when it finds nothing. -/
theorem le_of_firstAboveDigit_none :
    ∀ (xs : List Byte) (i : Nat), firstAboveDigit i xs = none → ∀ x ∈ xs, x.toNat ≤ 84
  | [], _, _, _, hx => nomatch hx
  | y :: ys, i, h, x, hx => by
    simp only [firstAboveDigit] at h
    split at h
    · nomatch h
    · rcases List.mem_cons.mp hx with rfl | hx
      · omega
      · exact le_of_firstAboveDigit_none ys (i + 1) h x hx

/-! ## Operand forms -/

/-- The 32-bit value of at most four raw bytes is R46's sum. -/
theorem bigEndian_toNat (bs : List Byte) (h : bs.length ≤ 4) : (bigEndian bs).toNat = rawValue bs := by
  have e (b : Byte) (k : Nat) (hk : k ≤ 24) : (b.setWidth 32 <<< k).toNat = b.toNat * 2 ^ k := by
    have hb : b.toNat < 2 ^ 8 := b.isLt
    have hp : 2 ^ k ≤ 2 ^ 24 := Nat.pow_le_pow_right (by decide) hk
    have : b.toNat * 2 ^ k < 2 ^ 8 * 2 ^ 24 :=
      Nat.lt_of_lt_of_le (Nat.mul_lt_mul_of_pos_right hb (Nat.two_pow_pos k)) (Nat.mul_le_mul_left _ hp)
    rw [BitVec.toNat_shiftLeft, BitVec.toNat_setWidth, Nat.mod_eq_of_lt (by omega : b.toNat < 2 ^ 32),
      Nat.shiftLeft_eq, Nat.mod_eq_of_lt (by omega)]
  have o (a b k : Nat) (hb : b < 2 ^ k) : a * 2 ^ k ||| b = a * 2 ^ k + b := by
    rw [← Nat.shiftLeft_eq, Nat.shiftLeft_add_eq_or_of_lt hb]
  match bs, h with
  | [], _ => rfl
  | [a], _ => simp [bigEndian, orBytes, rawValue, e]
  | [a, b], _ =>
    have h2 : b.toNat * 65536 < 2 ^ 24 := by omega
    have := o a.toNat (b.toNat * 65536) 24 h2
    simp only [Nat.reducePow] at this
    simp [bigEndian, orBytes, rawValue, e, this]
  | [a, b, c], _ =>
    have h1 := o (a.toNat * 256 + b.toNat) (c.toNat * 256) 16 (by omega)
    have h2 := o a.toNat (b.toNat * 65536) 24 (by omega)
    simp only [Nat.reducePow] at h1 h2
    simp [bigEndian, orBytes, rawValue, e, h2]
    rw [show a.toNat * 16777216 + b.toNat * 65536 = (a.toNat * 256 + b.toNat) * 65536 by omega, h1]
  | [a, b, c, d], _ =>
    have h0 := o (a.toNat * 65536 + b.toNat * 256 + c.toNat) d.toNat 8 (by omega)
    have h1 := o (a.toNat * 256 + b.toNat) (c.toNat * 256) 16 (by omega)
    have h2 := o a.toNat (b.toNat * 65536) 24 (by omega)
    simp only [Nat.reducePow] at h0 h1 h2
    simp [bigEndian, orBytes, rawValue, e, h2]
    rw [show a.toNat * 16777216 + b.toNat * 65536 = (a.toNat * 256 + b.toNat) * 65536 by omega, h1,
      show (a.toNat * 256 + b.toNat) * 65536 + c.toNat * 256 = (a.toNat * 65536 + b.toNat * 256 + c.toNat) * 256 by
        omega, Nat.mod_eq_of_lt (by omega : d.toNat < 4294967296), h0]

/-- The bytes of a value in big-endian order are R46's. -/
theorem valueBytes_take (v : Value) {n : Nat} (h : n ≤ 4) : (valueBytes v).take n = leadingBytes v.toNat n := by
  have e (k : Nat) : v.extractLsb' k 8 = BitVec.ofNat 8 (v.toNat / 2 ^ k) := by
    apply BitVec.eq_of_toNat_eq
    rw [toNat_slice, BitVec.toNat_ofNat]
  match n, h with
  | 0, _ => rfl
  | 1, _ => simp [valueBytes, leadingBytes, e]
  | 2, _ => simp [valueBytes, leadingBytes, e, List.range_succ]
  | 3, _ => simp [valueBytes, leadingBytes, e, List.range_succ]
  | 4, _ => simp [valueBytes, leadingBytes, e, List.range_succ]

/-- The digit registers loaded from lane values that are digits, the padding digit included, hold those values. -/
theorem paddedDigits_exact (xs : List Byte) (h : ∀ x ∈ xs, x.toNat ≤ 84) :
    exactDigits (paddedDigits xs) = exactValue (lanesOf 84#8 xs) ∧
      ((paddedDigits xs).l0.toNat ≤ 84 ∧ (paddedDigits xs).l1.toNat ≤ 84 ∧ (paddedDigits xs).l2.toNat ≤ 84 ∧
        (paddedDigits xs).l3.toNat ≤ 84 ∧ (paddedDigits xs).l4.toNat ≤ 84) := by
  have e (i : Nat) : ((xs.map fun x => x.setWidth 7).getD i (BitVec.ofNat 7 84)).toNat = (xs.getD i 84#8).toNat ∧
      (xs.getD i 84#8).toNat ≤ 84 := by
    rcases Nat.lt_or_ge i xs.length with hi | hi
    · have hx := h xs[i] (List.getElem_mem hi)
      simp [hi]
      omega
    · simp [hi]
  simp only [exactDigits, exactValue, paddedDigits, lanesOf, Config.pad, e, and_self]

end Sys2Proof.Machine
end

