-- ==== Sys2Proof/Laws/Blocks.lean ====
section
/-! SUPPORT. Blocks: prefixes of five lanes, blocks read back from a response, and the exact numbers of a short block's
padding (41_encoder.md R106; 42_decoder.md R124, R126). -/

namespace Sys2Proof.Machine

/-! ## Prefixes of five lanes -/

theorem mem_laneList {α : Type} {x : Five α} {y : α} : y ∈ laneList x ↔ ∃ i, laneGet x i = y := by
  constructor
  · intro h
    simp only [laneList, List.mem_cons, List.not_mem_nil, or_false] at h
    rcases h with rfl | rfl | rfl | rfl | rfl
    exacts [⟨0, rfl⟩, ⟨1, rfl⟩, ⟨2, rfl⟩, ⟨3, rfl⟩, ⟨4, rfl⟩]
  · rintro ⟨i, rfl⟩
    fin_cases i <;> simp [laneList, laneGet]

theorem laneList_take_length {α : Type} (x : Five α) (i : Fin 5) : ((laneList x).take i.val).length = i.val := by
  have := i.isLt
  rw [List.length_take, laneList_length]
  omega

/-- The first `n` lanes, cut at a lane `i` among them. -/
theorem laneList_take_split {α : Type} (x : Five α) (i : Fin 5) {n : Nat} (hn : i.val < n) :
    ∃ rest, (laneList x).take n = (laneList x).take i.val ++ laneGet x i :: rest := by
  obtain ⟨rest, hr⟩ : ∃ rest, laneList x = (laneList x).take i.val ++ laneGet x i :: rest := by
    fin_cases i
    exacts [⟨_, rfl⟩, ⟨_, rfl⟩, ⟨_, rfl⟩, ⟨_, rfl⟩, ⟨_, rfl⟩]
  refine ⟨rest.take (n - i.val - 1), ?_⟩
  conv_lhs => rw [hr]
  obtain ⟨k, rfl⟩ : ∃ k, n = i.val + (k + 1) := ⟨n - i.val - 1, by omega⟩
  rw [show i.val + (k + 1) = ((laneList x).take i.val).length + (k + 1) by rw [laneList_take_length],
    List.take_length_add_append, List.take_succ_cons, laneList_take_length]
  congr 3
  omega

/-- What holds of the first `n` lanes by number holds of them as a list. -/
theorem forall_mem_take {x : Five Byte} {P : Byte → Prop} {n : Nat} (h : ∀ j : Fin 5, j.val < n → P (laneGet x j)) :
    ∀ y ∈ (laneList x).take n, P y := by
  intro y hy
  rw [List.mem_take_iff_getElem] at hy
  obtain ⟨j, hj, rfl⟩ := hy
  rw [laneList_length] at hj
  have hp := h ⟨j, by omega⟩ (by simp only; omega)
  rwa [← laneList_getD x 0#8, List.getD_eq_getElem _ _ (by rw [laneList_length]; simp only; omega)] at hp

/-! ## Blocks in a word -/

/-- The bytes of an `ENCB` word of at most four bytes are those bytes. -/
theorem getD_take_four (bs : List Byte) (h : bs.length ≤ 4) :
    [bs.getD 0 0#8, bs.getD 1 0#8, bs.getD 2 0#8, bs.getD 3 0#8].take bs.length = bs := by
  match bs, h with
  | [], _ => rfl
  | [_], _ => rfl
  | [_, _], _ => rfl
  | [_, _, _], _ => rfl
  | [_, _, _, _], _ => rfl

/-- The characters of a `DECB` word of at most five characters are those characters. -/
theorem lanesOf_take (cs : List Byte) (h : cs.length ≤ 5) : (laneList (lanesOf 0#8 cs)).take cs.length = cs := by
  match cs, h with
  | [], _ => rfl
  | [_], _ => rfl
  | [_, _], _ => rfl
  | [_, _, _], _ => rfl
  | [_, _, _, _], _ => rfl
  | [_, _, _, _, _], _ => rfl

theorem rspChars_okWord {cs : List Byte} (h : cs.length ≤ 5) {l : BitVec 4} (hl : l.toNat = cs.length) (o : Bool) :
    rspChars (okWord l (dataOfChars cs) o) = cs := by
  simp only [rspChars, rspData_okWord, rspLen_okWord, charLanes_dataOfChars, hl]
  exact lanesOf_take cs h

theorem rspBytes_okWord {bs : List Byte} (h : bs.length ≤ 4) {l : BitVec 4} (hl : l.toNat = bs.length) (o : Bool) :
    rspBytes (okWord l (dataOfBytes bs) o) = bs := by
  simp only [rspBytes, rspData_okWord, rspLen_okWord, byteLanes_dataOfBytes, hl]
  exact getD_take_four bs h

@[simp] theorem leadingBytes_length (v n : Nat) : (leadingBytes v n).length = n := by simp [leadingBytes]

@[simp] theorem leadingChars_length (v n : Nat) : (leadingChars v n).length = n := by simp [leadingChars]

/-! ## The numbers of a short block -/

theorem rawValue_lt (bs : List Byte) : rawValue bs < 2 ^ 32 := by
  simp only [rawValue]
  omega

/-- R126 (a): the value of a block of `L` bytes is a multiple of `256^(4 - L)`. -/
theorem rawValue_mod (bs : List Byte) (h1 : 1 ≤ bs.length) (h4 : bs.length ≤ 4) :
    rawValue bs % 256 ^ (4 - bs.length) = 0 := by
  match bs, h1, h4 with
  | [a], _, _ => simp [rawValue]
  | [a, b], _, _ => simp only [rawValue, List.length]; simp; omega
  | [a, b, c], _, _ => simp [rawValue]; omega
  | [a, b, c, d], _, _ => simp [rawValue]; omega

/-- The leading bytes depend only on the value's leading part. -/
theorem leadingBytes_congr {e v n : Nat} (hn : n ≤ 4) (h : e / 256 ^ (4 - n) = v / 256 ^ (4 - n)) :
    leadingBytes e n = leadingBytes v n := by
  apply List.map_congr_left
  intro j hj
  have hj := List.mem_range.mp hj
  have hk (x : Nat) : x / 256 ^ (3 - j) = x / 256 ^ (4 - n) / 256 ^ (n - 1 - j) := by
    rw [Nat.div_div_eq_div_mul, ← Nat.pow_add]
    congr 2
    omega
  rw [hk e, hk v, h]

/-- A raw block is read back from its value. -/
theorem leadingBytes_rawValue (bs : List Byte) (h4 : bs.length ≤ 4) : leadingBytes (rawValue bs) bs.length = bs := by
  have e (x : Nat) (b : Byte) (h : x % 256 = b.toNat) : BitVec.ofNat 8 x = b := by
    apply BitVec.eq_of_toNat_eq
    rw [BitVec.toNat_ofNat]
    exact h
  match bs, h4 with
  | [], _ => rfl
  | [a], _ => simp [leadingBytes, rawValue]
  | [a, b], _ =>
    simp only [leadingBytes, rawValue, List.length, List.range_succ, List.range_zero]
    simp
    exact ⟨e _ _ (by omega), e _ _ (by omega)⟩
  | [a, b, c], _ =>
    simp only [leadingBytes, rawValue, List.length, List.range_succ, List.range_zero]
    simp
    exact ⟨e _ _ (by omega), e _ _ (by omega), e _ _ (by omega)⟩
  | [a, b, c, d], _ =>
    simp only [leadingBytes, rawValue, List.length, List.range_succ, List.range_zero]
    simp
    exact ⟨e _ _ (by omega), e _ _ (by omega), e _ _ (by omega), e _ _ (by omega)⟩

theorem leadingChars_inAlphabet (v n : Nat) : ∀ c ∈ leadingChars v n, InAlphabet c := by
  intro c hc
  obtain ⟨i, -, rfl⟩ := List.mem_map.mp hc
  exact inAlphabet_fwdConst (digitAt_lt _ _)

/-- R126 (b): the exact value of the first `n` digits of `v` and `5 - n` digits 84. -/
theorem exactValue_blockDigits {v n : Nat} (hv : v < 2 ^ 32) (h2 : 2 ≤ n) (h5 : n ≤ 5) :
    exactValue (blockDigits (leadingChars v n)) = v - v % 85 ^ (5 - n) + (85 ^ (5 - n) - 1) := by
  have e (i : Nat) : (BitVec.ofNat 8 (digitAt v i)).toNat = digitAt v i := by
    have := digitAt_lt v i
    rw [BitVec.toNat_ofNat]
    omega
  have hr : (leadingChars v n).map revConst = (List.range n).map fun i => BitVec.ofNat 8 (digitAt v i) := by
    simp only [leadingChars, List.map_map]
    exact List.map_congr_left fun i _ => revConst_fwdConst_eq (digitAt_lt _ _)
  rw [blockDigits, hr]
  rcases (by omega : n = 2 ∨ n = 3 ∨ n = 4 ∨ n = 5) with rfl | rfl | rfl | rfl <;>
    simp [exactValue, lanesOf, List.range_succ, digitAt] <;> omega

end Sys2Proof.Machine
end

