-- ==== Sys2Proof/Laws/Meanings.lean ====
section
/-! SUPPORT. Everything a command can do, said once: it completes with a success response, having written at most the
working registers of the iterative units, or with an error response, having written nothing else; and it never
stops. -/

namespace Sys2Proof.Machine

/-- The state with other contents in the working registers of the iterative units. -/
def State.withWork (s : State) (n : Value) (g : Five Digit) (c : BitVec 3) : State :=
  { s with num := n, dg := g, cnt := c }

theorem State.withWork_self (s : State) : s.withWork s.num s.dg s.cnt = s := rfl

/-- What completing a command makes of a state: a success with 1 to 5 result elements, or an error. -/
inductive Completes (s : State) : State → Prop where
  | ok (n : Value) (g : Five Digit) (c : BitVec 3) (len : BitVec 4) (d : Data) (o : Bool) (h1 : 1 ≤ len.toNat)
      (h5 : len.toNat ≤ 5) : Completes s ((s.withWork n g c).complete (okWord len d o))
  | error (st : Status) (p : BitVec 4) (x : Byte) (h : st ≠ .ok) : Completes s (s.complete (errorWord st p x))

/-- The decoder's iteration writes only the working registers. -/
theorem decDigits_withWork (s : State) (d : Five Digit) : ∃ n c, (s.decDigits d).1 = s.withWork n d c := by
  refine ⟨(s.decDigits d).1.num, (s.decDigits d).1.cnt, ?_⟩
  rfl

/-- Digits of the encoder's iteration are below 85. -/
theorem digitsOf_lt (v : Nat) (n : Nat) : ∀ d ∈ (laneList (digitsOf v)).take n, d.toNat < 85 := by
  intro d hd
  have hm := List.mem_of_mem_take hd
  have e (i : Nat) : (BitVec.ofNat 7 (digitAt v i)).toNat < 85 := by
    rw [BitVec.toNat_ofNat]
    exact Nat.lt_of_le_of_lt (Nat.mod_le ..) (digitAt_lt v i)
  simp only [laneList, digitsOf, List.mem_cons, List.not_mem_nil, or_false] at hm
  rcases hm with rfl | rfl | rfl | rfl | rfl <;> exact e _

theorem execA2c_completes (len : BitVec 4) (junk : BitVec 32) (idx : Byte) (s : State) :
    ∃ t, execA2c len junk idx s = .next t ∧ Completes s t := by
  unfold execA2c
  split
  · exact ⟨_, rfl, .error .contractViolation _ _ (by decide)⟩
  · rw [readFwd_of_lt s.mem (by omega)]
    exact ⟨_, rfl, .ok s.num s.dg s.cnt _ _ _ (by decide) (by decide)⟩

theorem execC2a_completes (len : BitVec 4) (junk : BitVec 32) (chr : Byte) (s : State) :
    ∃ t, execC2a len junk chr s = .next t ∧ Completes s t := by
  unfold execC2a
  split
  · exact ⟨_, rfl, .error .invalidCharacter _ _ (by decide)⟩
  · exact ⟨_, rfl, .ok s.num s.dg s.cnt _ _ _ (by decide) (by decide)⟩

theorem execEncw_completes (len : BitVec 4) (junk : Byte) (v : Value) (s : State) :
    ∃ t, execEncw len junk v s = .next t ∧ Completes s t := by
  unfold execEncw
  rw [encDigits_eq]
  exact ⟨_, rfl, .ok _ _ _ _ _ _ (by decide) (by decide)⟩

theorem execEncb_completes (len : BitVec 4) (junk b0 b1 b2 b3 : Byte) (s : State) :
    ∃ t, execEncb len junk b0 b1 b2 b3 s = .next t ∧ Completes s t := by
  unfold execEncb
  split
  · exact ⟨_, rfl, .error .contractViolation _ _ (by decide)⟩
  · rename_i h
    have hl : (len + 1#4).toNat = len.toNat + 1 := by
      rw [BitVec.toNat_add]
      simp only [BitVec.toNat_ofNat]
      omega
    simp only [encDigits_eq]
    obtain ⟨cs, hcs, -⟩ := forwardAll_ok s.mem _ (digitsOf_lt (bigEndian ([b0, b1, b2, b3].take len.toNat)).toNat
      (len.toNat + 1))
    rw [hcs]
    exact ⟨_, rfl, .ok _ _ _ _ _ _ (by omega) (by omega)⟩

theorem execDecw_completes (len : BitVec 4) (x : Five Byte) (s : State) :
    ∃ t, execDecw len x s = .next t ∧ Completes s t := by
  unfold execDecw
  split
  · exact ⟨_, rfl, .error .contractViolation _ _ (by decide)⟩
  · obtain ⟨n, c, h⟩ := decDigits_withWork s (paddedDigits (laneList x))
    simp only [h]
    exact ⟨_, rfl, .ok _ _ _ _ _ _ (by decide) (by decide)⟩

theorem execDecb_completes (len : BitVec 4) (c : Five Byte) (s : State) :
    ∃ t, execDecb len c s = .next t ∧ Completes s t := by
  unfold execDecb
  split
  · exact ⟨_, rfl, .error .malformedLength _ _ (by decide)⟩
  · rename_i h
    have hl : (len - 1#4).toNat = len.toNat - 1 := by
      rw [BitVec.toNat_sub]
      simp only [BitVec.toNat_ofNat]
      omega
    split
    · exact ⟨_, rfl, .error .invalidCharacter _ _ (by decide)⟩
    · rename_i xs _
      obtain ⟨n, k, hd⟩ := decDigits_withWork s (paddedDigits xs)
      simp only [hd]
      exact ⟨_, rfl, .ok _ _ _ _ _ _ (by omega) (by omega)⟩

theorem raiseIllegal_completes (s : State) : ∃ t, s.raiseIllegal = .next t ∧ Completes s t :=
  ⟨_, rfl, .error .illegalCommand _ _ (by decide)⟩

/-- Every command completes from every state (60_exceptions.md R180), in one of the two ways. -/
theorem exec_completes (i : Instr) (s : State) : ∃ t, exec i s = .next t ∧ Completes s t := by
  cases i with
  | a2c len junk idx => exact execA2c_completes len junk idx s
  | c2a len junk chr => exact execC2a_completes len junk chr s
  | encw len junk val => exact execEncw_completes len junk val s
  | decw len x => exact execDecw_completes len x s
  | encb len junk b0 b1 b2 b3 => exact execEncb_completes len junk b0 b1 b2 b3 s
  | decb len c => exact execDecb_completes len c s
  | illegal0 | illegal7 | illegal8 | illegal9 | illegalA | illegalB | illegalC | illegalD | illegalE | illegalF =>
    exact raiseIllegal_completes s

/-- The inversion lemma: what a next state of a command is. -/
theorem completes_of_exec {i : Instr} {s t : State} (h : exec i s = .next t) : Completes s t := by
  obtain ⟨t', h', hc⟩ := exec_completes i s
  rw [h] at h'
  cases h'
  exact hc

/-! ## What a completed command leaves -/

theorem Completes.answered {s t : State} (h : Completes s t) : t.rspv = true ∧ t.busy = false ∧ t.wait = 0 := by
  cases h <;> exact ⟨rfl, rfl, rfl⟩

theorem Completes.mem_eq {s t : State} (h : Completes s t) : t.mem = s.mem := by
  cases h <;> rfl

theorem Completes.sameLatches {s t : State} (h : Completes s t) : SameLatches s t := by
  cases h <;> exact ⟨rfl, rfl, rfl, rfl, rfl, rfl⟩

end Sys2Proof.Machine
end

