-- ==== Sys2Proof/Laws/PerInstr.lean ====
section
/-! SUPPORT. Statements about every instruction, one lemma per constructor: decoding its word gives it back. -/

namespace Sys2Proof.Laws.RoundTrip

open Sys2Proof.Machine

/-- Decoding the word of `i` gives `i` (30_encoding.md R61, R64 to R73). -/
def Statement (i : Instr) : Prop := decodeWord (encode i) = i

/-- The low byte of a `DATA` field is its last character lane (R64, R70). -/
theorem data_of_byte (junk : BitVec 32) (x : Byte) :
    (junk ++ x : Data).extractLsb' 8 32 = junk ∧ (charLanes (junk ++ x)).l4 = x := by
  constructor <;> apply BitVec.eq_of_toNat_eq
  · rw [toNat_slice, toNat_append_add]; omega
  · simp only [charLanes]; rw [toNat_slice, toNat_append_add]; omega

/-- `DATA[39:32]` and the value `DATA[31:0]` (R69). -/
theorem data_of_value (junk : Byte) (v : Value) :
    (charLanes (junk ++ v)).l0 = junk ∧ (junk ++ v : Data).extractLsb' 0 32 = v := by
  constructor <;> apply BitVec.eq_of_toNat_eq
  · simp only [charLanes]; rw [toNat_slice, toNat_append_add]; omega
  · rw [toNat_slice, toNat_append_add]; omega

theorem a2c (len : BitVec 4) (junk : BitVec 32) (idx : Byte) : Statement (.a2c len junk idx) := by
  simp [Statement, encode, decodeWord, data_of_byte]

theorem c2a (len : BitVec 4) (junk : BitVec 32) (chr : Byte) : Statement (.c2a len junk chr) := by
  simp [Statement, encode, decodeWord, data_of_byte]

theorem encw (len : BitVec 4) (junk : Byte) (val : Value) : Statement (.encw len junk val) := by
  simp [Statement, encode, decodeWord, data_of_value]

theorem decw (len : BitVec 4) (x : Five Byte) : Statement (.decw len x) := by
  simp [Statement, encode, decodeWord]

theorem encb (len : BitVec 4) (junk b0 b1 b2 b3 : Byte) : Statement (.encb len junk b0 b1 b2 b3) := by
  have h : charLanes (junk ++ b0 ++ b1 ++ b2 ++ b3) = ⟨junk, b0, b1, b2, b3⟩ :=
    charLanes_packChars ⟨junk, b0, b1, b2, b3⟩
  simp [Statement, encode, decodeWord, h]

theorem decb (len : BitVec 4) (c : Five Byte) : Statement (.decb len c) := by
  simp [Statement, encode, decodeWord]

theorem illegal0 (len : BitVec 4) (data : Data) : Statement (.illegal0 len data) := by
  simp [Statement, encode, decodeWord]

theorem illegal7 (len : BitVec 4) (data : Data) : Statement (.illegal7 len data) := by
  simp [Statement, encode, decodeWord]

theorem illegal8 (len : BitVec 4) (data : Data) : Statement (.illegal8 len data) := by
  simp [Statement, encode, decodeWord]

theorem illegal9 (len : BitVec 4) (data : Data) : Statement (.illegal9 len data) := by
  simp [Statement, encode, decodeWord]

theorem illegalA (len : BitVec 4) (data : Data) : Statement (.illegalA len data) := by
  simp [Statement, encode, decodeWord]

theorem illegalB (len : BitVec 4) (data : Data) : Statement (.illegalB len data) := by
  simp [Statement, encode, decodeWord]

theorem illegalC (len : BitVec 4) (data : Data) : Statement (.illegalC len data) := by
  simp [Statement, encode, decodeWord]

theorem illegalD (len : BitVec 4) (data : Data) : Statement (.illegalD len data) := by
  simp [Statement, encode, decodeWord]

theorem illegalE (len : BitVec 4) (data : Data) : Statement (.illegalE len data) := by
  simp [Statement, encode, decodeWord]

theorem illegalF (len : BitVec 4) (data : Data) : Statement (.illegalF len data) := by
  simp [Statement, encode, decodeWord]

end Sys2Proof.Laws.RoundTrip
end

