-- ==== Sys2Proof/Laws/Step.lean ====
section
/-! SUPPORT. Everything a step can do, said once: one event of the block at a rising edge, then the outside moves on
(30_encoding.md R63; 10_state.md R23; 70_reset_and_hazards.md R190 to R197). -/

namespace Sys2Proof.Machine

/-- The events of the block at a rising edge. -/
inductive BlockEvent (s : State) : State → Prop where
  /-- `rst = 1` (R190, R191). -/
  | reset (h : s.rst = true) : BlockEvent s s.resetEdge
  /-- The command in flight completes (R23). -/
  | complete (hr : s.rst = false) (hb : s.busy = true) (hw : s.wait ≤ 1) (t : State)
      (h : exec (decodeWord s.latched) s = .next t) : BlockEvent s t
  /-- The command in flight takes a further edge (R202). -/
  | goOn (hr : s.rst = false) (hb : s.busy = true) (hw : 2 ≤ s.wait) : BlockEvent s { s with wait := s.wait - 1 }
  /-- The response is taken (R23). -/
  | take (hr : s.rst = false) (hb : s.busy = false) (h : s.takes = true) : BlockEvent s s.take
  /-- A command is accepted and takes further edges (R23). -/
  | accept (hr : s.rst = false) (hb : s.busy = false) (ha : s.accepts = true)
      (hl : Config.latency s.draws (driverPins s.driver).cmd ≠ 0) : BlockEvent s (s.accept (driverPins s.driver).cmd)
  /-- A command is accepted and completes at the same edge (R63). -/
  | acceptComplete (hr : s.rst = false) (hb : s.busy = false) (ha : s.accepts = true)
      (hl : Config.latency s.draws (driverPins s.driver).cmd = 0) (t : State)
      (h : exec (decodeWord (s.accept (driverPins s.driver).cmd).latched) (s.accept (driverPins s.driver).cmd) =
        .next t) : BlockEvent s t
  /-- Nothing happens. -/
  | idle (hr : s.rst = false) (hb : s.busy = false) (ht : s.takes = false) (ha : s.accepts = false) : BlockEvent s s

/-- A block that accepts has nothing pending. -/
theorem rspv_of_accepts {s : State} (h : s.accepts = true) : s.rspv = false ∧ s.busy = false ∧ s.rst = false := by
  simp only [State.accepts, State.cmdReady, Bool.and_eq_true, Bool.not_eq_true'] at h
  exact ⟨h.2.1.2, h.2.1.1, h.2.2⟩

theorem not_takes_of_accepts {s : State} (h : s.accepts = true) : s.takes = false := by
  simp [State.takes, State.rspValid, (rspv_of_accepts h).1]

/-- The latches hold the word that was accepted. -/
theorem latched_accept (s : State) (w : Command) : (s.accept w).latched = w := by
  simp [State.latched, State.accept, State.latch, packCommand_fields]

theorem latched_placeCommand (s : State) (w : Command) : (s.placeCommand w).latched = w := by
  simp [State.latched, State.placeCommand, State.latch, packCommand_fields]

/-- The block always answers a next state, by one of the events. -/
theorem blockEdge_event (s : State) : ∃ t, s.blockEdge = .next t ∧ BlockEvent s t := by
  unfold State.blockEdge
  by_cases hr : s.rst = true
  · exact ⟨_, if_pos hr, .reset hr⟩
  have hr' : s.rst = false := Bool.eq_false_iff.mpr hr
  rw [if_neg hr]
  by_cases hb : s.busy = true
  · rw [if_pos hb, State.goOn]
    by_cases hw : s.wait ≤ 1
    · obtain ⟨t, ht, -⟩ := exec_completes (decodeWord s.latched) s
      rw [if_pos hw]
      exact ⟨t, ht, .complete hr' hb hw t ht⟩
    · rw [if_neg hw]
      exact ⟨_, rfl, .goOn hr' hb (by omega)⟩
  have hb' : s.busy = false := Bool.eq_false_iff.mpr hb
  rw [if_neg hb]
  by_cases ht : s.takes = true
  · exact ⟨_, if_pos ht, .take hr' hb' ht⟩
  have ht' : s.takes = false := Bool.eq_false_iff.mpr ht
  rw [if_neg ht]
  by_cases ha : s.accepts = true
  · rw [if_pos ha]
    by_cases hl : Config.latency s.draws (driverPins s.driver).cmd = 0
    · obtain ⟨t, he, -⟩ := exec_completes (decodeWord (s.accept (driverPins s.driver).cmd).latched)
        (s.accept (driverPins s.driver).cmd)
      exact ⟨t, (if_pos (c := (s.accept (driverPins s.driver).cmd).wait = 0) hl).trans he,
        .acceptComplete hr' hb' ha hl t he⟩
    · exact ⟨_, if_neg (c := (s.accept (driverPins s.driver).cmd).wait = 0) hl, .accept hr' hb' ha hl⟩
  · rw [if_neg ha]
    exact ⟨_, rfl, .idle hr' hb' ht' (Bool.eq_false_iff.mpr ha)⟩

theorem step_of_blockEdge {s t : State} (h : s.blockEdge = .next t) : step s = .next (s.outsideEdge t) := by
  simp only [step, State.edge, h]

/-- The inversion lemma of a step. -/
theorem event_of_step {s t : State} (h : step s = .next t) : ∃ b, BlockEvent s b ∧ t = s.outsideEdge b := by
  obtain ⟨b, hb, he⟩ := blockEdge_event s
  rw [step_of_blockEdge hb] at h
  cases h
  exact ⟨b, he, rfl⟩

/-- Nothing writes the tables (20_memory.md R49). -/
theorem BlockEvent.mem_eq {s b : State} (h : BlockEvent s b) : b.mem = s.mem := by
  cases h with
  | complete _ _ _ _ h => exact (completes_of_exec h).mem_eq
  | acceptComplete _ _ _ _ _ h => exact (completes_of_exec h).mem_eq
  | _ => rfl

/-- A step keeps the memory, hence its canonical form. -/
theorem step_keeps_mem {s t : State} (h : step s = .next t) : t.mem = s.mem := by
  obtain ⟨b, hb, rfl⟩ := event_of_step h
  exact hb.mem_eq

theorem step_keeps_memory_wf {s t : State} (h : step s = .next t) (hw : s.mem.wf = true) : t.mem.wf = true := by
  rw [step_keeps_mem h]
  exact hw

/-! ## Runs -/

theorem run_succ {s t : State} (n : Nat) (h : step s = .next t) :
    Host.Core.run core (n + 1) s = Host.Core.run core n t := by
  have h' : core.step s = .next t := h
  simp only [Host.Core.run, h']

theorem run_trans {s t u : State} {m n : Nat} (h : Host.Core.run core m s = .next t)
    (h' : Host.Core.run core n t = .next u) : Host.Core.run core (m + n) s = .next u := by
  induction m generalizing s with
  | zero =>
    cases h
    rw [Nat.zero_add]
    exact h'
  | succ m ih =>
    obtain ⟨b, hb, -⟩ := blockEdge_event s
    have hs := step_of_blockEdge hb
    rw [run_succ m hs] at h
    rw [show m + 1 + n = m + n + 1 by omega, run_succ _ hs]
    exact ih h

end Sys2Proof.Machine
end

