-- ==== Sys2Proof/Laws/Streams.lean ====
section
/-! SUPPORT. Streams: induction by groups of four bytes and of five characters, and what cutting a chunk into groups
leaves (43_stream_host.md R141, R142, R147). -/

namespace Sys2Proof.Machine

/-- Induction on a byte sequence by its full groups of four (R144). -/
theorem groupsOfFour_induction {P : List Byte → Prop}
    (full : ∀ b0 b1 b2 b3 rest, P rest → P (b0 :: b1 :: b2 :: b3 :: rest)) (none : P [])
    (short : ∀ bs : List Byte, 1 ≤ bs.length → bs.length < 4 → P bs) (bs : List Byte) : P bs := by
  induction bs using groupsOfFour.induct with
  | case1 b0 b1 b2 b3 rest ih => exact full _ _ _ _ _ ih
  | case2 bs hn =>
    match bs, hn with
    | [], _ => exact none
    | [_], _ => exact short _ (by simp) (by simp)
    | [_, _], _ => exact short _ (by simp) (by simp)
    | [_, _, _], _ => exact short _ (by simp) (by simp)
    | a :: b :: c :: d :: e, hn => exact absurd rfl (hn a b c d e)

/-- Induction on a character sequence by its full groups of five (R151). -/
theorem groupsOfFive_induction {P : List Byte → Prop}
    (full : ∀ c0 c1 c2 c3 c4 rest, P rest → P (c0 :: c1 :: c2 :: c3 :: c4 :: rest)) (none : P [])
    (one : ∀ c : Byte, P [c]) (short : ∀ cs : List Byte, 2 ≤ cs.length → cs.length < 5 → P cs) (cs : List Byte) :
    P cs := by
  induction cs using groupsOfFive.induct with
  | case1 c0 c1 c2 c3 c4 rest ih => exact full _ _ _ _ _ _ ih
  | case2 cs hn =>
    match cs, hn with
    | [], _ => exact none
    | [_], _ => exact one _
    | [_, _], _ => exact short _ (by simp) (by simp)
    | [_, _, _], _ => exact short _ (by simp) (by simp)
    | [_, _, _, _], _ => exact short _ (by simp) (by simp)
    | a :: b :: c :: d :: e :: f, hn => exact absurd rfl (hn a b c d e f)

theorem groupsOfFour_short (bs : List Byte) (h : bs.length < 4) : groupsOfFour bs = ([], bs) := by
  match bs, h with
  | [], _ => rfl
  | [_], _ => rfl
  | [_, _], _ => rfl
  | [_, _, _], _ => rfl

theorem groupsOfFour_rest (bs : List Byte) : (groupsOfFour bs).2.length ≤ 3 := by
  induction bs using groupsOfFour_induction with
  | full b0 b1 b2 b3 rest ih => exact ih
  | none => decide
  | short bs h1 h4 =>
    rw [groupsOfFour_short bs h4]
    exact Nat.le_of_lt_succ h4

/-- A chunk that does not fill the carry joins it. -/
theorem encodeByByte_short (carry chunk : List Byte) (h : carry.length + chunk.length < 4) :
    encodeByByte carry chunk = ([], carry ++ chunk) := by
  induction chunk generalizing carry with
  | nil => simp [encodeByByte]
  | cons b rest ih =>
    simp only [List.length_cons] at h
    rw [encodeByByte, if_neg (by omega), ih _ (by simp; omega)]
    simp

/-- A chunk that fills the carry completes one block, and the rest starts from an empty carry. -/
theorem encodeByByte_full (carry chunk : List Byte) (hc : carry.length ≤ 3) (h : 4 ≤ carry.length + chunk.length) :
    encodeByByte carry chunk =
      ((carry ++ chunk.take (4 - carry.length)) :: (encodeByByte [] (chunk.drop (4 - carry.length))).1,
        (encodeByByte [] (chunk.drop (4 - carry.length))).2) := by
  induction chunk generalizing carry with
  | nil =>
    simp only [List.length_nil] at h
    omega
  | cons b rest ih =>
    simp only [List.length_cons] at h
    rw [encodeByByte]
    by_cases h3 : carry.length + 1 = 4
    · rw [if_pos h3, show 4 - carry.length = 1 by omega]
      rfl
    · rw [if_neg h3, ih _ (by simp; omega) (by simp; omega),
        show 4 - carry.length = (4 - (carry ++ [b]).length) + 1 by simp; omega]
      simp

theorem decodeChars_short (pos : Nat) (cs : List Byte) (h2 : 2 ≤ cs.length) (h5 : cs.length < 5) :
    decodeChars pos cs = decodeBlock pos cs ⟨[], .ok⟩ := by
  match cs, h2, h5 with
  | [_, _], _, _ => rfl
  | [_, _, _], _, _ => rfl
  | [_, _, _, _], _, _ => rfl

end Sys2Proof.Machine
end

