-- ==== Sys2Proof/Tests/Slice0.lean ====
section
/-! SUPPORT. Tests. Words and responses are the spec's own: the examples in the command rules and the vectors of
95_test_vectors.md, or words written out from 30_encoding.md R61, R64 to R73. The `witness_` theorems show states and
operands that meet the hypotheses of the statement they name. -/

namespace Sys2Proof.Tests

open Sys2Proof Sys2Proof.Machine

/-! ## Well-formed commands: one ill-formed term for each check (R198, R74) -/

theorem test_wf_a2c_index :
    (Instr.a2c 0#4 0#32 85#8).wellFormed = false ∧ (Instr.a2c 0#4 0#32 84#8).wellFormed = true := by decide

theorem test_wf_decw_lanes :
    (Instr.decw 0#4 ⟨85#8, 0#8, 0#8, 0#8, 0#8⟩).wellFormed = false ∧
      (Instr.decw 0#4 ⟨0#8, 85#8, 0#8, 0#8, 0#8⟩).wellFormed = false ∧
      (Instr.decw 0#4 ⟨0#8, 0#8, 85#8, 0#8, 0#8⟩).wellFormed = false ∧
      (Instr.decw 0#4 ⟨0#8, 0#8, 0#8, 85#8, 0#8⟩).wellFormed = false ∧
      (Instr.decw 0#4 ⟨0#8, 0#8, 0#8, 0#8, 85#8⟩).wellFormed = false ∧
      (Instr.decw 0#4 ⟨84#8, 84#8, 84#8, 84#8, 84#8⟩).wellFormed = true := by decide

theorem test_wf_encb_length :
    (Instr.encb 0#4 0#8 1#8 2#8 3#8 4#8).wellFormed = false ∧ (Instr.encb 5#4 0#8 1#8 2#8 3#8 4#8).wellFormed = false ∧
      (Instr.encb 1#4 0#8 1#8 2#8 3#8 4#8).wellFormed = true ∧
      (Instr.encb 4#4 0#8 1#8 2#8 3#8 4#8).wellFormed = true := by decide

theorem test_wf_decb_length :
    (Instr.decb 1#4 ⟨0x4F#8, 0x23#8, 0#8, 0#8, 0#8⟩).wellFormed = false ∧
      (Instr.decb 6#4 ⟨0x4F#8, 0x23#8, 0#8, 0#8, 0#8⟩).wellFormed = false ∧
      (Instr.decb 2#4 ⟨0x4F#8, 0x23#8, 0#8, 0#8, 0#8⟩).wellFormed = true ∧
      (Instr.decb 5#4 ⟨0x4F#8, 0x23#8, 0#8, 0#8, 0#8⟩).wellFormed = true := by decide

theorem test_wf_illegal :
    (Instr.illegal0 0#4 0#40).wellFormed = false ∧ (Instr.illegal7 0#4 0#40).wellFormed = false ∧
      (Instr.illegal8 0#4 0#40).wellFormed = false ∧ (Instr.illegal9 0#4 0#40).wellFormed = false ∧
      (Instr.illegalA 0#4 0#40).wellFormed = false ∧ (Instr.illegalB 0#4 0#40).wellFormed = false ∧
      (Instr.illegalC 0#4 0#40).wellFormed = false ∧ (Instr.illegalD 0#4 0#40).wellFormed = false ∧
      (Instr.illegalE 0#4 0#40).wellFormed = false ∧ (Instr.illegalF 0#4 0#40).wellFormed = false := by decide

/-! ## Decoding: a word of every row, its fields written out one by one (R61, R64 to R73) -/

theorem test_decode_a2c :
    decodeWord 0b0001_1010_00010010001101000101011001111000_01010100#48 = .a2c 0xA#4 0x12345678#32 84#8 := by decide

theorem test_decode_c2a :
    decodeWord 0b0010_0101_00010010001101000101011001111000_01111110#48 = .c2a 0x5#4 0x12345678#32 0x7E#8 := by decide

theorem test_decode_encw :
    decodeWord 0b0011_0111_10101011_00010010001101000101011001111000#48 = .encw 7#4 0xAB#8 0x12345678#32 := by decide

theorem test_decode_decw :
    decodeWord 0b0100_0001_00011000_01001001_01010000_01001110_00111101#48 =
      .decw 1#4 ⟨24#8, 73#8, 80#8, 78#8, 61#8⟩ := by decide

theorem test_decode_encb :
    decodeWord 0b0101_0100_11101110_01001101_01100001_01101110_00100000#48 =
      .encb 4#4 0xEE#8 0x4D#8 0x61#8 0x6E#8 0x20#8 := by decide

theorem test_decode_decb :
    decodeWord 0b0110_0010_01001111_00100011_00000001_00000010_00000011#48 =
      .decb 2#4 ⟨0x4F#8, 0x23#8, 1#8, 2#8, 3#8⟩ := by decide

theorem test_decode_illegal :
    decodeWord 0x0F4F23000000#48 = .illegal0 0xF#4 0x4F23000000#40 ∧
      decodeWord 0x700000001234#48 = .illegal7 0#4 0x1234#40 ∧ decodeWord 0x800000000000#48 = .illegal8 0#4 0#40 ∧
      decodeWord 0x910000000002#48 = .illegal9 1#4 2#40 ∧ decodeWord 0xA10000000002#48 = .illegalA 1#4 2#40 ∧
      decodeWord 0xB10000000002#48 = .illegalB 1#4 2#40 ∧ decodeWord 0xC10000000002#48 = .illegalC 1#4 2#40 ∧
      decodeWord 0xD10000000002#48 = .illegalD 1#4 2#40 ∧ decodeWord 0xE10000000002#48 = .illegalE 1#4 2#40 ∧
      decodeWord 0xFFFFFFFFFFFF#48 = .illegalF 0xF#4 0xFFFFFFFFFF#40 := by decide

/-- A string that is not six bytes long is no command (R60, R76). -/
theorem test_decode_bytes :
    decodeBytes [0x10#8, 0#8, 0#8, 0#8, 0#8, 0x54#8] = .ok (.a2c 0#4 0#32 84#8) ∧
      decodeBytes [0x10#8, 0#8, 0#8, 0#8, 0#8] = .error (.tooShort 5) ∧
      decodeBytes [0x10#8, 0#8, 0#8, 0#8, 0#8, 0x54#8, 0#8] = .error (.tooLong 7) ∧
      decodeTableWord 48 0x100000000054 = some (.a2c 0#4 0#32 84#8) := by
  refine ⟨by rfl, by rfl, by rfl, by rfl⟩

/-! ## One command each, from reset, against the vectors of the spec -/

/-- What stands on the response port one step after the word was placed. -/
def reply (w : Nat) : Option ResponseWord :=
  match step (State.reset.withFetchWord 48 w) with
  | .next t => t.rspPort
  | .fault _ => none
  | .refused _ => none

theorem test_a2c :
    reply 0x100000000054 = some 0x010000000000007E#64 ∧ reply 0x100000000055 = some 0x3000550000000000#64 := by
  decide +kernel

theorem test_c2a :
    reply 0x20000000007E = some 0x0100000000000054#64 ∧ reply 0x200000000020 = some 0x1000200000000000#64 := by
  decide +kernel

theorem test_encw :
    reply 0x30004D616E20 = some 0x0500001849504E3D#64 ∧ reply 0x3000FFFFFFFF = some 0x0500005217360C00#64 := by
  decide +kernel

theorem test_decw_value :
    reply 0x401849504E3D = some 0x040000004D616E20#64 ∧ reply 0x405217360C01 = some 0x0410000000000000#64 := by
  decide +kernel

theorem test_decw_lane :
    reply 0x400000550000 = some 0x3002550000000000#64 ∧ reply 0x4000000080C8 = some 0x3003800000000000#64 := by
  decide +kernel

theorem test_encb_characters :
    reply 0x53004D616E00 = some 0x0400004F3C605E00#64 ∧ reply 0x51EE4DAABBCC = some 0x0200004F23000000#64 := by
  decide +kernel

theorem test_encb_length :
    reply 0x50004D000000 = some 0x3000000000000000#64 ∧ reply 0x55004D616E20 = some 0x3000000000000000#64 := by
  decide +kernel

theorem test_decb_bytes :
    reply 0x624F23010203 = some 0x010000004D000000#64 ∧ reply 0x647E7E7E7E00 = some 0x0310000008780E00#64 := by
  decide +kernel

theorem test_decb_errors :
    reply 0x65307F302030 = some 0x10017F0000000000#64 ∧ reply 0x610100000000 = some 0x2000000000000000#64 ∧
      reply 0x663030303030 = some 0x2000000000000000#64 := by decide +kernel

theorem test_illegal :
    reply 0x000000000000 = some 0x4000000000000000#64 ∧ reply 0x700000001234 = some 0x4000000000000000#64 ∧
      reply 0xFFFFFFFFFFFF = some 0x4000000000000000#64 := by decide +kernel

/-! ## Streams and notation (programs P1, P3, P4, P5; R77, R78) -/

theorem test_encode_stream :
    encodeStream [[0x4D#8, 0x61#8], [0x6E#8, 0x20#8, 0x69#8, 0x73#8]] =
      [0x4F#8, 0x3C#8, 0x60#8, 0x5E#8, 0x7A#8, 0x58#8, 0x3E#8, 0x24#8] := by decide +kernel

theorem test_decode_position :
    decodeText [0x4F#8, 0x3C#8, 0x60#8, 0x5E#8, 0x7A#8, 0x20#8, 0x30#8, 0x30#8, 0x2C#8, 0x30#8, 0x30#8] =
      ⟨[0x4D#8, 0x61#8, 0x6E#8, 0x20#8],
        .invalidCharacter 0x2C#8 [0x30#8, 0x30#8, 0x2C#8, 0x30#8, 0x30#8] 7⟩ := by decide +kernel

theorem test_decode_truncated :
    decodeText [0x4F#8, 0x3C#8, 0x60#8, 0x5E#8, 0x7A#8, 0x58#8] =
      ⟨[0x4D#8, 0x61#8, 0x6E#8, 0x20#8], .truncatedInput⟩ := by decide +kernel

theorem test_notation :
    (parseAsm "DECW 24, 73, 80, 78, 61".toList).bind assemble = some [0x401849504E3D#48] ∧
      (parseAsm "ENCB.5 0x4D, 0x61, 0x6E, 0x20".toList).bind assemble = some [0x55004D616E20#48] ∧
      (parseAsm "DECB \"00\\x010~\"".toList).bind assemble = some [0x65303001307E#48] ∧
      readReply 0x1002010000000000#64 = some (.invalidCharacter 2 1#8) := by decide +kernel

/-! ## Witnesses: states -/

/-- `ENCB 0x4D` in flight. -/
def inFlight : State := State.reset.placeCommand 0x51004D000000#48

/-- `ENCB 0x4D` on the command port of an idle block. -/
def presented : State := { State.reset with driver := .manual [⟨true, 0x51004D000000#48, false⟩] }

/-- The response of `ENCB 0x4D` pending. -/
def pending : State := { State.reset with rsp := 0x0200004F23000000#64, rspv := true }

/-- A stream encoder with three bytes left, in a given phase. -/
def encoder (p : HostPhase) : EncodeHost := ⟨[], [], [0x4D#8, 0x61#8, 0x6E#8], [], p⟩

/-- A stream decoder with two characters left, in a given phase. -/
def decoder (p : HostPhase) : DecodeHost := ⟨[], [], [0x4F#8, 0x23#8], 0, [], p⟩

/-- An edge with `rst = 1` under a host. -/
def rstEdge (d : Driver) : State := { inFlight with rstIn := [true], driver := d }

/-! ## Witnesses, in the order of the statements -/

theorem witness_RstEdgeIdlesTheBlock :
    (rstEdge (.manual [])).rst = true ∧ ({ pending with rstIn := [true] } : State).rst = true := by decide

theorem witness_RstKeepsTheHostsCarry :
    (∃ t, step (rstEdge (.encode (encoder .awaiting))) = .next t) ∧
      (∃ t, step (rstEdge (.encode (encoder .presenting))) = .next t) ∧
      (∃ t, step (rstEdge (.decode (decoder .awaiting))) = .next t) ∧
      (∃ t, step (rstEdge (.decode (decoder .presenting))) = .next t) ∧
      (rstEdge (.encode (encoder .awaiting))).rst = true :=
  ⟨⟨_, rfl⟩, ⟨_, rfl⟩, ⟨_, rfl⟩, ⟨_, rfl⟩, rfl⟩

theorem witness_InvariantIsKept :
    (inFlight.Inv ∧ ∃ t, step inFlight = .next t) ∧ (pending.Inv ∧ ∃ t, step pending = .next t) :=
  ⟨⟨by decide, _, rfl⟩, by decide +kernel, _, rfl⟩

theorem witness_StepRunsTheDecodedInstruction :
    (inFlight.rst = false ∧ inFlight.busy = true ∧ inFlight.wait ≤ 1 ∧
      inFlight.latched = encode (.encb 1#4 0#8 0x4D#8 0#8 0#8 0#8)) ∧
    (({ inFlight with wait := 2 } : State).rst = false ∧ ({ inFlight with wait := 2 } : State).busy = true ∧
      2 ≤ ({ inFlight with wait := 2 } : State).wait) ∧
    (presented.accepts = true ∧
      (driverPins presented.driver).cmd = encode (.encb 1#4 0#8 0x4D#8 0#8 0#8 0#8)) := by decide

theorem witness_NoStepWritesATable : ∃ t, step inFlight = .next t := ⟨_, rfl⟩

theorem witness_OnlySixBytesDecode : (encodeBytes (.a2c 0#4 0#32 84#8)).length = 6 := by decide

theorem witness_TablesAreInverse :
    State.reset.mem.constant = true ∧ State.reset.mem.readFwd 84 = State.reset.mem.readFwd 84 ∧
      State.reset.mem.readRev 0x7E#8 ≠ 0xFF#8 ∧ State.reset.mem.readFwd 84 = some 0x7E#8 := by decide +kernel

theorem witness_A2cAnswersTheCharacter :
    State.reset.mem.constant = true ∧ (84#8).toNat ≤ 84 ∧ ¬(85#8).toNat ≤ 84 := by decide

theorem witness_C2aAnswersTheDigit :
    State.reset.mem.constant = true ∧ InAlphabet 0x7E#8 ∧ ¬InAlphabet 0x7F#8 := by decide +kernel

theorem witness_LookupsAreInverseCommands :
    (84#8).toNat ≤ 84 ∧ answer (encode (.c2a 0#4 0#32 0x7E#8)) = okWord 1#4 ((84#8).setWidth 40) false ∧
      rspStatus (answer (encode (.a2c 0#4 0#32 84#8))) = 0#4 := by decide +kernel

theorem witness_LookupAndIllegalFrame :
    (∃ t, exec (.a2c 0#4 0#32 84#8) inFlight = .next t) ∧ (∃ t, exec (.c2a 0#4 0#32 0x7E#8) inFlight = .next t) ∧
      (∃ t, exec (.illegal0 0#4 0#40) inFlight = .next t) ∧ (∃ t, exec (.illegalF 0#4 0#40) inFlight = .next t) :=
  ⟨⟨_, rfl⟩, ⟨_, rfl⟩, ⟨_, rfl⟩, ⟨_, rfl⟩⟩

theorem witness_EncodeDigitRanges :
    (State.reset.encDigits 0xFFFFFFFF#32).dg = (inFlight.encDigits 0xFFFFFFFF#32).dg := by decide +kernel

theorem witness_EncbAnswersTheCharacters :
    State.reset.mem.constant = true ∧ (1 ≤ (1#4).toNat ∧ (1#4).toNat ≤ 4) ∧ (1 ≤ (4#4).toNat ∧ (4#4).toNat ≤ 4) ∧
      ¬(1 ≤ (0#4).toNat ∧ (0#4).toNat ≤ 4) ∧ ¬(1 ≤ (5#4).toNat ∧ (5#4).toNat ≤ 4) := by decide

theorem witness_EncbLengthLaw :
    (1 ≤ (1#4).toNat ∧ (4#4).toNat ≤ 4) ∧
      rspStatus (answer (encode (.encb 4#4 0#8 0x4D#8 0x61#8 0x6E#8 0x20#8))) = 0#4 := by decide +kernel

theorem witness_EncbPrefixLaw :
    (1 ≤ [0x4D#8].length ∧ [0x4D#8].length ≤ 3) ∧
      (1 ≤ [0x4D#8, 0x61#8, 0x6E#8].length ∧ [0x4D#8, 0x61#8, 0x6E#8].length ≤ 3) := by decide

theorem witness_DecodeIterationGivesTheValue :
    ∀ i, (laneGet (⟨84#8, 84#8, 84#8, 84#8, 84#8⟩ : Five Byte) i).toNat ≤ 84 := by decide

theorem witness_DecwAnswersTheValue :
    (∀ i, (laneGet (⟨82#8, 23#8, 54#8, 12#8, 1#8⟩ : Five Byte) i).toNat ≤ 84) ∧
      84 < (laneGet (⟨85#8, 0#8, 0#8, 0#8, 0#8⟩ : Five Byte) 0).toNat ∧
      (84 < (laneGet (⟨84#8, 84#8, 84#8, 84#8, 85#8⟩ : Five Byte) 4).toNat ∧
        ∀ j, j < (4 : Fin 5) → (laneGet (⟨84#8, 84#8, 84#8, 84#8, 85#8⟩ : Five Byte) j).toNat ≤ 84) := by decide

theorem witness_DecodeOverflowFacts :
    (∀ i, (laneGet (⟨83#8, 0#8, 0#8, 0#8, 0#8⟩ : Five Byte) i).toNat ≤ 84) ∧ 83 ≤ (83#8).toNat ∧
      (∀ i, (laneGet (⟨82#8, 23#8, 54#8, 12#8, 0#8⟩ : Five Byte) i).toNat ≤ 84) := by decide

theorem witness_DecbAnswersTheBytes :
    State.reset.mem.constant = true ∧ (1#4).toNat ≤ 1 ∧ 6 ≤ (6#4).toNat ∧
      (2 ≤ (2#4).toNat ∧ (2#4).toNat ≤ 5) ∧ (2 ≤ (5#4).toNat ∧ (5#4).toNat ≤ 5) ∧
      (¬InAlphabet (laneGet (⟨0x30#8, 0x30#8, 0x30#8, 0x30#8, 0xFF#8⟩ : Five Byte) 4) ∧
        ∀ j, j < (4 : Fin 5) → InAlphabet (laneGet (⟨0x30#8, 0x30#8, 0x30#8, 0x30#8, 0xFF#8⟩ : Five Byte) j)) ∧
      (∀ i : Fin 5, i.val < (2#4).toNat →
        InAlphabet (laneGet (⟨0x4F#8, 0x23#8, 1#8, 2#8, 3#8⟩ : Five Byte) i)) := by decide +kernel

theorem witness_DecbLengthLawWithoutCanonicalForm :
    (2 ≤ [0x4F#8, 0x24#8].length ∧ [0x4F#8, 0x24#8].length ≤ 5 ∧ ∀ c ∈ [0x4F#8, 0x24#8], InAlphabet c) ∧
      (∀ c ∈ [0x7E#8, 0x7E#8, 0x7E#8, 0x7E#8, 0x7E#8], InAlphabet c) := by decide +kernel

theorem witness_BlockRoundTrip :
    (1 ≤ [0x4D#8].length ∧ [0x4D#8].length ≤ 4) ∧
      (1 ≤ [0xFF#8, 0xFF#8, 0xFF#8, 0xFF#8].length ∧ [0xFF#8, 0xFF#8, 0xFF#8, 0xFF#8].length ≤ 4) := by decide

theorem witness_DecbIsLookupsThenDecw :
    (2 ≤ [0x7C#8, 0x4E#8].length ∧ [0x7C#8, 0x4E#8].length ≤ 5 ∧ ∀ c ∈ [0x7C#8, 0x4E#8], InAlphabet c) ∧
      ([0x7E#8, 0x7E#8, 0x7E#8, 0x7E#8, 0x7E#8].length = 5 ∧
        ∀ c ∈ [0x7E#8, 0x7E#8, 0x7E#8, 0x7E#8, 0x7E#8], InAlphabet c) := by decide +kernel

theorem witness_UnitsAreInverse :
    (∀ i, (laneGet (⟨82#8, 23#8, 54#8, 12#8, 0#8⟩ : Five Byte) i).toNat ≤ 84) ∧
      rspOvf (answer (encode (.decw 0#4 ⟨82#8, 23#8, 54#8, 12#8, 0#8⟩))) = false ∧
      rspOvf (answer (encode (.decw 0#4 ⟨82#8, 23#8, 54#8, 12#8, 1#8⟩))) = true := by decide +kernel

theorem witness_EncoderAndDecoderFrame :
    (∃ t, exec (.encw 0#4 0#8 0xFFFFFFFF#32) inFlight = .next t) ∧
      (∃ t, exec (.encb 1#4 0#8 0x4D#8 0#8 0#8 0#8) inFlight = .next t) ∧
      (∃ t, exec (.decw 0#4 ⟨24#8, 73#8, 80#8, 78#8, 61#8⟩) inFlight = .next t) ∧
      (∃ t, exec (.decb 2#4 ⟨0x4F#8, 0x23#8, 0#8, 0#8, 0#8⟩) inFlight = .next t) :=
  ⟨⟨_, rfl⟩, ⟨_, rfl⟩, ⟨_, rfl⟩, ⟨_, rfl⟩⟩

theorem witness_IllegalOpcodesAnswerIllegalCommand :
    commandOp 0#48 = 0#4 ∧ 7 ≤ (commandOp 0x700000001234#48).toNat ∧ 7 ≤ (commandOp 0xFFFFFFFFFFFF#48).toNat := by
  decide

/-- One witness for the statements about every instruction and every next state: a success, an error, an
overflow. -/
theorem witness_of_every_response :
    (∃ t, exec (.a2c 0#4 0#32 84#8) State.reset = .next t ∧ rspStatus t.rsp = 0#4) ∧
      (∃ t, exec (.a2c 0#4 0#32 85#8) State.reset = .next t ∧ rspStatus t.rsp ≠ 0#4) ∧
      (∃ t, exec (.decw 0#4 ⟨84#8, 84#8, 84#8, 84#8, 84#8⟩) State.reset = .next t ∧ rspOvf t.rsp = true) :=
  ⟨⟨_, rfl, by decide +kernel⟩, ⟨_, rfl, by decide +kernel⟩, ⟨_, rfl, by decide +kernel⟩⟩

theorem witness_IgnoredFieldsDoNotMatter :
    (∀ k : Fin 4, k.val < (1#4).toNat → (fun j : Fin 4 => BitVec.ofNat 8 j.val) k = (fun _ => 0#8) k) ∧
      (∀ k : Fin 5, k.val < (2#4).toNat →
        laneGet (⟨0x4F#8, 0x23#8, 1#8, 2#8, 3#8⟩ : Five Byte) k =
          laneGet (⟨0x4F#8, 0x23#8, 0#8, 0#8, 0#8⟩ : Five Byte) k) ∧
      commandOp 0x700000001234#48 = commandOp 0x7F0000000000#48 := by decide

theorem witness_AcceptLatchesTheCommand :
    presented.mem.constant = true ∧ presented.accepts = true ∧ ∃ t, step presented = .next t :=
  ⟨by decide, by decide, let ⟨_, hb, _⟩ := blockEdge_event presented; ⟨_, step_of_blockEdge hb⟩⟩

/-- `pending` under a host that is ready for the response. -/
def taking : State := { pending with driver := .manual [⟨false, 0#48, true⟩] }

/-- A response held, a response taken, an idle edge. -/
theorem witness_ResponseIsHeldUntilTaken :
    (pending.rst = false ∧ pending.busy = false ∧ pending.rspv = true ∧ pending.takes = false ∧
      ∃ t, step pending = .next t) ∧
    (taking.rst = false ∧ taking.busy = false ∧ taking.rspv = true ∧ taking.takes = true ∧
      ∃ t, step taking = .next t) ∧
    (State.reset.rst = false ∧ State.reset.busy = false ∧ State.reset.rspv = false ∧ State.reset.accepts = false ∧
      ∃ t, step State.reset = .next t) :=
  ⟨⟨rfl, rfl, rfl, rfl, _, rfl⟩, ⟨rfl, rfl, rfl, rfl, _, rfl⟩, rfl, rfl, rfl, rfl, _, rfl⟩

theorem witness_UnreadyBlockIgnoresCommands :
    inFlight.cmdReady = false ∧ pending.cmdReady = false ∧ (rstEdge (.manual [])).cmdReady = false := by decide

theorem witness_AcceptedCommandCompletes :
    inFlight.mem.constant = true ∧ inFlight.busy = true ∧ inFlight.rspv = false ∧ inFlight.rstIn = [] := by decide

theorem witness_TransactionReturnsTheAnswer :
    presented.mem.constant = true ∧ presented.busy = false ∧ presented.rspv = false ∧ presented.rstIn = [] ∧
      presented.driver = .manual [⟨true, 0x51004D000000#48, false⟩] := by decide

theorem witness_StreamHostHoldsItsCommand :
    (({ inFlight with driver := .encode (encoder .presenting) } : State).accepts = false ∧
      ∃ t, step { inFlight with driver := .encode (encoder .presenting) } = .next t) ∧
    (({ pending with driver := .decode (decoder .presenting) } : State).accepts = false ∧
      ∃ t, step { pending with driver := .decode (decoder .presenting) } = .next t) :=
  ⟨⟨by decide, _, rfl⟩, by decide, _, rfl⟩

theorem witness_ChunkStepsEqualByteByByte :
    ([] : List Byte).length ≤ 3 ∧ [0x4D#8, 0x61#8, 0x6E#8].length ≤ 3 := by decide

theorem witness_WhitespaceDoesNotMatter :
    ∀ c ∈ [0x0C#8, 0x20#8], c ∈ [0x20#8, 0x09#8, 0x0A#8, 0x0D#8, 0x0B#8, 0x0C#8] := by decide

/-- A bad last character of a short block of two; one character left over behind a full block; a text of seven. -/
theorem witness_DecodeOutcomes :
    (¬InAlphabet ([0x30#8, 0x2C#8].getD 1 0#8) ∧ (∀ q, q < 1 → InAlphabet ([0x30#8, 0x2C#8].getD q 0#8)) ∧
      ¬(1 + 1 = [0x30#8, 0x2C#8].length ∧ [0x30#8, 0x2C#8].length % 5 = 1)) ∧
    ((∀ q, q < 5 → InAlphabet ([0x30#8, 0x30#8, 0x30#8, 0x30#8, 0x30#8, 0x2C#8].getD q 0#8)) ∧
      [0x30#8, 0x30#8, 0x30#8, 0x30#8, 0x30#8, 0x2C#8].length % 5 = 1) ∧
    ((∀ q, q < 7 → InAlphabet ([0x30#8, 0x30#8, 0x30#8, 0x30#8, 0x30#8, 0x4F#8, 0x23#8].getD q 0#8)) ∧
      [0x30#8, 0x30#8, 0x30#8, 0x30#8, 0x30#8, 0x4F#8, 0x23#8].length % 5 ≠ 1) := by decide +kernel

theorem witness_EncodeHostReachesTheText :
    let s : State := { State.reset with driver := .encode (encodeStart [[0x4D#8], [0x61#8]]) }
    s.mem.constant = true ∧ s.busy = false ∧ s.rspv = false ∧ s.rstIn = [] := by decide

theorem witness_DecodeHostReachesTheOutcome :
    let s : State := { State.reset with driver := .decode (decodeStart [[0x4F#8], [0x23#8]]) }
    s.mem.constant = true ∧ s.busy = false ∧ s.rspv = false ∧ s.rstIn = [] := by decide

/-- A block of each length at the edges; a text of six characters with one left over behind a good block; one whose first
block fails before the second. -/
theorem witness_NotationAssembles :
    (1 ≤ [0x4D#8].length ∧ [0x4D#8].length ≤ 4) ∧ ([] : List Byte).length ≤ 4 ∧
      (2 ≤ [0x4F#8, 0x23#8].length ∧ [0x4F#8, 0x23#8].length ≤ 5) ∧
      ((dropWhitespace [0x30#8, 0x30#8, 0x30#8, 0x30#8, 0x30#8, 0x2C#8]).length % 5 = 1 ∧
        (expandDecode [0x30#8, 0x30#8, 0x30#8, 0x30#8, 0x30#8, 0x2C#8]).all fun w => rspStatus (answer w) == 0#4) ∧
      expandDecode [0x2C#8, 0x30#8, 0x30#8, 0x30#8, 0x30#8, 0x4F#8, 0x23#8] = [0x652C30303030#48] := by decide +kernel

/-- A stream decoder with the one character 0x2C, not in the alphabet, in its carry, in a given phase. -/
def truncated (p : HostPhase) : DecodeHost := ⟨[], [], [0x2C#8], 5, [], p⟩

theorem witness_TruncatedInputByEitherRoute :
    (∃ t, step { State.reset with driver := .decode (truncated .reading) } = .next t) ∧
      (∃ t, step { pending with rsp := answer (decbWord [0x2C#8]), driver := .decode (truncated .awaiting) } = .next t) ∧
      ({ pending with driver := .decode (truncated .awaiting) } : State).rst = false ∧
      (dropWhitespace [0x20#8, 0x2C#8]).length = 1 :=
  ⟨⟨_, rfl⟩, let ⟨_, hb, _⟩ := blockEdge_event _; ⟨_, step_of_blockEdge hb⟩, by decide, by decide⟩

end Sys2Proof.Tests
end

section
/-! PROOFS. The statements of 10_state.md: the machine invariant, what each command leaves unchanged, the response as a
function of the command word, and the events of the ports. -/

namespace Sys2Proof.Machine

/-! ## The tables and the latches -/

/-- Tables that hold the same cells read the same. -/
theorem sameTables_of_mem_eq {s t : State} (h : t.mem = s.mem) : SameTables s t :=
  ⟨fun a => by rw [h], fun c => by rw [h]⟩

theorem SameLatches.latched_eq {s t : State} (h : SameLatches s t) : t.latched = s.latched := by
  obtain ⟨hchr, hopr, hlenr, -⟩ := h
  simp only [State.latched, hchr, hopr, hlenr]

/-- Only one memory lists no cell, the one of the reset state. -/
theorem Memory.eq_reset_of_constant {m : Memory} (h : m.constant = true) : m = State.reset.mem := by
  calc
    m = ⟨m.fwd, m.rev⟩ := rfl
    _ = ⟨[], []⟩ := by rw [Memory.fwd_of_constant h, Memory.rev_of_constant h]

/-! ## Legal response words (30_encoding.md R62) -/

theorem responseLegal_okWord {len : BitVec 4} (h1 : 1 ≤ len.toNat) (h5 : len.toNat ≤ 5) (d : Data) (o : Bool) :
    responseLegal (okWord len d o) = true := by
  simp [responseLegal, h1, h5]

theorem responseLegal_errorWord {st : Status} (h : st ≠ .ok) (p : BitVec 4) (x : Byte) :
    responseLegal (errorWord st p x) = true := by
  cases st with
  | ok => exact absurd rfl h
  | invalidCharacter | malformedLength | contractViolation | illegalCommand => simp [responseLegal, statusCode]

/-- Whatever a command answers is legal. -/
theorem Completes.rsp_legal {s t : State} (h : Completes s t) : responseLegal t.rsp = true := by
  cases h with
  | ok n g c len d o h1 h5 => exact responseLegal_okWord h1 h5 d o
  | error st p x hst => exact responseLegal_errorWord hst p x

/-! ## The block's part of the machine invariant -/

/-- What the machine invariant says of the block beside its tables. -/
structure State.BlockOk (s : State) : Prop where
  /-- At most one of a command in flight and a pending response (10_state.md R23). -/
  exclusive : ¬(s.busy = true ∧ s.rspv = true)
  /-- No edge is due while no command is in flight (log entry 4). -/
  waitZero : s.busy = false → s.wait = 0
  /-- A pending response is legal. -/
  legal : s.rspv = true → responseLegal s.rsp = true

theorem inv_iff (s : State) : s.Inv ↔ s.mem.constant = true ∧ s.BlockOk ∧ driverOk s.driver = true :=
  ⟨fun ⟨hm, hx, hw, hl, hd⟩ => ⟨hm, ⟨hx, hw, hl⟩, hd⟩, fun ⟨hm, ⟨hx, hw, hl⟩, hd⟩ => ⟨hm, hx, hw, hl, hd⟩⟩

/-- A completed command leaves a legal response and nothing in flight, wherever it started. -/
theorem Completes.blockOk {s t : State} (h : Completes s t) : t.BlockOk := by
  obtain ⟨-, hbusy, hwait⟩ := h.answered
  exact ⟨by simp [hbusy], fun _ => hwait, fun _ => h.rsp_legal⟩

theorem BlockEvent.blockOk {s b : State} (h : BlockEvent s b) (hs : s.BlockOk) : b.BlockOk := by
  cases h with
  | reset => exact ⟨by simp, by simp, by simp⟩
  | complete _ _ _ _ he => exact (completes_of_exec he).blockOk
  | goOn _ hb _ => exact ⟨hs.exclusive, by simp [hb], hs.legal⟩
  | take _ hb _ => exact ⟨by simp, hs.waitZero, by simp⟩
  | accept _ _ ha _ =>
    have hv := (rspv_of_accepts ha).1
    exact ⟨by simp [hv], by simp, by simp [hv]⟩
  | acceptComplete _ _ _ _ _ he => exact (completes_of_exec he).blockOk
  | idle => exact hs

/-! ## The hosts' carries (43_stream_host.md R141, R146) -/

theorem encodeRead_ok {h : EncodeHost} (hp : h.phase = .reading) (hl : h.ec.length ≤ 3) :
    encodeHostOk (encodeRead h) = true := by
  unfold encodeRead
  split
  · by_cases h4 : h.ec.length + 1 = 4
    · simp [encodeHostOk, h4]
    · have h3 : h.ec.length < 3 := by omega
      simp [encodeHostOk, h4, h3]
  · simp [encodeHostOk, hp, hl]
  · cases hec : h.ec with
    | nil => simp [encodeHostOk]
    | cons b bs =>
      have h4 : bs.length < 4 := by
        rw [hec, List.length_cons] at hl
        omega
      simp [encodeHostOk, h4]

/-- Taking a response empties the carry or ends the operation without a success. -/
theorem encodeTake_ok (h : EncodeHost) (w : ResponseWord) : encodeHostOk (encodeTake h w) = true := by
  unfold encodeTake
  split <;> rfl

theorem encodeMove_ok (rst accepted : Bool) (taken : Option ResponseWord) {h : EncodeHost}
    (hok : encodeHostOk h = true) : encodeHostOk (encodeMove rst accepted taken h) = true := by
  unfold encodeMove
  split
  case h_1 hp => exact encodeRead_ok hp (by simpa [encodeHostOk, hp] using hok)
  case h_2 hp =>
    cases accepted with
    | true => simpa [encodeHostOk, hp] using hok
    | false => exact hok
  case h_3 hp =>
    cases rst with
    | true => simpa [encodeHostOk, hp] using hok
    | false =>
      cases taken with
      | none => exact hok
      | some w => exact encodeTake_ok h w
  case h_4 => exact hok

theorem decodeRead_ok {h : DecodeHost} (hp : h.phase = .reading) (hl : h.dc.length ≤ 4) :
    decodeHostOk (decodeRead h) = true := by
  unfold decodeRead
  split
  next b rest _ =>
    by_cases hw : isWhitespace b = true
    · simp [decodeHostOk, hw, hp, hl]
    · by_cases h5 : h.dc.length + 1 = 5
      · simp [decodeHostOk, hw, h5]
      · have h4 : h.dc.length < 4 := by omega
        simp [decodeHostOk, hw, h5, h4]
  · simp [decodeHostOk, hp, hl]
  · match hdc : h.dc with
    | [] => simp [decodeHostOk]
    | [c] => simp [decodeHostOk]
    | c :: c' :: cs =>
      have h5 : cs.length + 1 < 5 := by
        rw [hdc, List.length_cons, List.length_cons] at hl
        omega
      simp [decodeHostOk, h5]

/-- A failing response never ends the operation with success, and with `TruncatedInput` only on one character (R148). -/
theorem decodeFailure_ok (h : DecodeHost) (w : ResponseWord) :
    decodeHostOk { h with phase := .finished (decodeFailure h.pos h.dc w) } = true := by
  unfold decodeFailure
  split
  · rfl
  · split
    case isTrue h1 => exact decide_eq_true h1.2
    case isFalse => rfl

theorem decodeTake_ok (h : DecodeHost) (w : ResponseWord) : decodeHostOk (decodeTake h w) = true := by
  unfold decodeTake
  split
  · rfl
  · exact decodeFailure_ok h w

theorem decodeMove_ok (rst accepted : Bool) (taken : Option ResponseWord) {h : DecodeHost}
    (hok : decodeHostOk h = true) : decodeHostOk (decodeMove rst accepted taken h) = true := by
  unfold decodeMove
  split
  case h_1 hp => exact decodeRead_ok hp (by simpa [decodeHostOk, hp] using hok)
  case h_2 hp =>
    cases accepted with
    | true => simpa [decodeHostOk, hp] using hok
    | false => exact hok
  case h_3 hp =>
    cases rst with
    | true => simpa [decodeHostOk, hp] using hok
    | false =>
      cases taken with
      | none => exact hok
      | some w => exact decodeTake_ok h w
  case h_4 => exact hok

theorem driverMove_ok (rst accepted : Bool) (taken : Option ResponseWord) {d : Driver} (hd : driverOk d = true) :
    driverOk (driverMove rst accepted taken d) = true := by
  cases d with
  | manual script => rfl
  | encode h => exact encodeMove_ok rst accepted taken hd
  | decode h => exact decodeMove_ok rst accepted taken hd

/-- Settles O5: the tables are never written, each event of the block keeps the block's part, and each move of the host
keeps its carry within bounds. -/
theorem invariantIsKept : Obligations.InvariantIsKept := by
  intro s t hinv hstep
  obtain ⟨hm, hblock, hd⟩ := (inv_iff s).mp hinv
  obtain ⟨b, hb, rfl⟩ := event_of_step hstep
  obtain ⟨hx, hw, hl⟩ := hb.blockOk hblock
  have hmem : b.mem.constant = true := by rw [hb.mem_eq, hm]
  exact (inv_iff _).mpr ⟨hmem, ⟨hx, hw, hl⟩, driverMove_ok s.rst s.accepts s.takenWord hd⟩

/-- Settles O4: the reset state lists no cell, has nothing in flight or pending, and its host holds no carry. -/
theorem invariantHoldsAtReset : Obligations.InvariantHoldsAtReset :=
  (inv_iff _).mpr ⟨rfl, ⟨by decide, fun _ => rfl, by decide⟩, rfl⟩

/-! ## Frames (10_state.md R20) -/

/-- A command that writes nothing but its response. -/
def OnlyResponds (s : State) (o : Out) : Prop := ∃ w, o = .next (s.complete w)

theorem execA2c_onlyResponds (len : BitVec 4) (junk : BitVec 32) (idx : Byte) (s : State) :
    OnlyResponds s (execA2c len junk idx s) := by
  unfold execA2c
  split
  · exact ⟨_, rfl⟩
  · rw [readFwd_of_lt s.mem (by omega)]
    exact ⟨_, rfl⟩

theorem execC2a_onlyResponds (len : BitVec 4) (junk : BitVec 32) (chr : Byte) (s : State) :
    OnlyResponds s (execC2a len junk chr s) := by
  unfold execC2a
  split <;> exact ⟨_, rfl⟩

theorem raiseIllegal_onlyResponds (s : State) : OnlyResponds s s.raiseIllegal := ⟨_, rfl⟩

theorem OnlyResponds.frame {s t : State} (h : OnlyResponds s (.next t)) :
    SameTables s t ∧ SameLatches s t ∧ SameWork s t := by
  obtain ⟨w, hw⟩ := h
  cases hw
  exact ⟨sameTables_of_mem_eq rfl, ⟨rfl, rfl, rfl, rfl, rfl, rfl⟩, rfl, rfl, rfl⟩

/-- Settles O20: each of these commands only responds. -/
theorem lookupAndIllegalFrame : Obligations.LookupAndIllegalFrame := by
  intro i s t hi he
  suffices h : OnlyResponds s (exec i s) from (he ▸ h).frame
  cases i with
  | a2c len junk idx => exact execA2c_onlyResponds len junk idx s
  | c2a len junk chr => exact execC2a_onlyResponds len junk chr s
  | encw | decw | encb | decb => exact hi.elim
  | illegal0 | illegal7 | illegal8 | illegal9 | illegalA | illegalB | illegalC | illegalD | illegalE | illegalF =>
    exact raiseIllegal_onlyResponds s

/-- What every command leaves, however it completes. -/
theorem exec_frame {i : Instr} {s t : State} (h : exec i s = .next t) : SameTables s t ∧ SameLatches s t :=
  have hc := completes_of_exec h
  ⟨sameTables_of_mem_eq hc.mem_eq, hc.sameLatches⟩

/-- Settles O37, by the frame that all commands share. -/
theorem encoderAndDecoderFrame : Obligations.EncoderAndDecoderFrame := fun _ _ =>
  ⟨fun _ _ _ => exec_frame, fun _ _ _ _ _ _ => exec_frame, fun _ _ => exec_frame, fun _ _ => exec_frame⟩

/-! ## The response of a command -/

/-- The response word an outcome leaves in `RSP`, where it is a next state. -/
def responseOf : Out → Option ResponseWord
  | .next t => some t.rsp
  | _ => none

@[simp] theorem responseOf_next (t : State) : responseOf (.next t) = some t.rsp := rfl
@[simp] theorem responseOf_fault (f : Fault) : responseOf (.fault f) = none := rfl
@[simp] theorem responseOf_respondOk (s : State) (len : BitVec 4) (d : Data) (o : Bool) :
    responseOf (s.respondOk len d o) = some (okWord len d o) := rfl
@[simp] theorem responseOf_raise (s : State) (st : Status) (p : BitVec 4) (x : Byte) :
    responseOf (s.raise st p x) = some (errorWord st p x) := rfl

/-! ### Only the decoder overflows (R29) -/

/-- The outcome does not answer with `OVF = 1`. -/
def WithoutOvf (o : Out) : Prop := ∀ w ∈ responseOf o, rspOvf w = false

@[simp] theorem withoutOvf_fault (f : Fault) : WithoutOvf (.fault f) := by simp [WithoutOvf]
@[simp] theorem withoutOvf_respondOk (s : State) (len : BitVec 4) (d : Data) :
    WithoutOvf (s.respondOk len d false) := by simp [WithoutOvf]
@[simp] theorem withoutOvf_raise (s : State) (st : Status) (p : BitVec 4) (x : Byte) :
    WithoutOvf (s.raise st p x) := by simp [WithoutOvf]

theorem execA2c_withoutOvf (len : BitVec 4) (junk : BitVec 32) (idx : Byte) (s : State) :
    WithoutOvf (execA2c len junk idx s) := by
  unfold execA2c
  split
  · simp
  · split <;> simp

theorem execC2a_withoutOvf (len : BitVec 4) (junk : BitVec 32) (chr : Byte) (s : State) :
    WithoutOvf (execC2a len junk chr s) := by
  unfold execC2a
  split <;> simp

theorem execEncb_withoutOvf (len : BitVec 4) (junk b0 b1 b2 b3 : Byte) (s : State) :
    WithoutOvf (execEncb len junk b0 b1 b2 b3 s) := by
  unfold execEncb
  split
  · simp
  · dsimp only
    split <;> simp

theorem Completes.rspStatus_of_rspOvf {s t : State} (h : Completes s t) (ho : rspOvf t.rsp = true) :
    rspStatus t.rsp = 0#4 := by
  cases h with
  | ok n g c len d o => simp
  | error st p x => simp at ho

/-- Settles O41: an error response and the success responses of the other commands hold `OVF = 0`. -/
theorem ovfComesFromTheDecoderOnly : Obligations.OvfComesFromTheDecoderOnly := by
  intro i s t he ho
  have hno : ¬WithoutOvf (exec i s) := fun h => by simpa [ho] using h t.rsp (by simp [he])
  refine ⟨(completes_of_exec he).rspStatus_of_rspOvf ho, ?_⟩
  cases i with
  | decw len x => exact .inl ⟨len, x, rfl⟩
  | decb len c => exact .inr ⟨len, c, rfl⟩
  | a2c len junk idx => exact absurd (execA2c_withoutOvf len junk idx s) hno
  | c2a len junk chr => exact absurd (execC2a_withoutOvf len junk chr s) hno
  | encw => exact absurd (withoutOvf_respondOk _ _ _) hno
  | encb len junk b0 b1 b2 b3 => exact absurd (execEncb_withoutOvf len junk b0 b1 b2 b3 s) hno
  | illegal0 | illegal7 | illegal8 | illegal9 | illegalA | illegalB | illegalC | illegalD | illegalE | illegalF =>
    exact absurd (withoutOvf_raise _ _ _ _) hno

/-! ### The response depends on the command and the tables alone (R32) -/

/-- The decoder's iteration reads no register of the state it starts from. -/
theorem decDigits_congr (s s' : State) (d : Five Digit) :
    (s.decDigits d).1.num = (s'.decDigits d).1.num ∧ (s.decDigits d).2 = (s'.decDigits d).2 := ⟨rfl, rfl⟩

theorem execDecw_response_congr (s s' : State) (len : BitVec 4) (x : Five Byte) :
    responseOf (execDecw len x s) = responseOf (execDecw len x s') := by
  unfold execDecw
  split
  · simp
  · obtain ⟨hnum, hovf⟩ := decDigits_congr s s' (paddedDigits (laneList x))
    simp [hnum, hovf]

section
variable {s s' : State} (hm : s.mem = s'.mem)
include hm

theorem execA2c_response_congr (len : BitVec 4) (junk : BitVec 32) (idx : Byte) :
    responseOf (execA2c len junk idx s) = responseOf (execA2c len junk idx s') := by
  unfold execA2c
  rw [hm]
  split
  · simp
  · split <;> simp

theorem execC2a_response_congr (len : BitVec 4) (junk : BitVec 32) (chr : Byte) :
    responseOf (execC2a len junk chr s) = responseOf (execC2a len junk chr s') := by
  unfold execC2a
  rw [hm]
  split <;> simp

theorem execEncb_response_congr (len : BitVec 4) (junk b0 b1 b2 b3 : Byte) :
    responseOf (execEncb len junk b0 b1 b2 b3 s) = responseOf (execEncb len junk b0 b1 b2 b3 s') := by
  unfold execEncb
  simp only [encDigits_eq, hm]
  split
  · simp
  · split <;> simp

theorem execDecb_response_congr (len : BitVec 4) (c : Five Byte) :
    responseOf (execDecb len c s) = responseOf (execDecb len c s') := by
  unfold execDecb
  rw [hm]
  split
  · simp
  · split
    · simp
    · rename_i xs _
      obtain ⟨hnum, hovf⟩ := decDigits_congr s s' (paddedDigits xs)
      simp [hnum, hovf]

theorem exec_response_congr (i : Instr) : responseOf (exec i s) = responseOf (exec i s') := by
  cases i with
  | a2c len junk idx => exact execA2c_response_congr hm len junk idx
  | c2a len junk chr => exact execC2a_response_congr hm len junk chr
  | encw len junk val => simp [exec, execEncw, encDigits_eq]
  | decw len x => exact execDecw_response_congr s s' len x
  | encb len junk b0 b1 b2 b3 => exact execEncb_response_congr hm len junk b0 b1 b2 b3
  | decb len c => exact execDecb_response_congr hm len c
  | illegal0 | illegal7 | illegal8 | illegal9 | illegalA | illegalB | illegalC | illegalD | illegalE | illegalF => rfl

end

theorem responseOf_exec_reset (w : Command) : responseOf (exec (decodeWord w) State.reset) = some (answer w) := by
  obtain ⟨t, ht, -⟩ := exec_completes (decodeWord w) State.reset
  simp only [answer, ht, responseOf_next]

/-- The instruction of a word is answered with the answer to the word. -/
theorem rsp_eq_answer {w : Command} {s t : State} (hm : s.mem.constant = true) (h : exec (decodeWord w) s = .next t) :
    t.rsp = answer w := by
  have hr := exec_response_congr (Memory.eq_reset_of_constant hm) (decodeWord w)
  rw [responseOf_exec_reset, h, responseOf_next] at hr
  exact Option.some.inj hr

/-- Decoding the word of an instruction gives it back. -/
theorem decodeWord_encode (i : Instr) : decodeWord (encode i) = i := by
  cases i with
  | a2c => exact Laws.RoundTrip.a2c ..
  | c2a => exact Laws.RoundTrip.c2a ..
  | encw => exact Laws.RoundTrip.encw ..
  | decw => exact Laws.RoundTrip.decw ..
  | encb => exact Laws.RoundTrip.encb ..
  | decb => exact Laws.RoundTrip.decb ..
  | illegal0 => exact Laws.RoundTrip.illegal0 ..
  | illegal7 => exact Laws.RoundTrip.illegal7 ..
  | illegal8 => exact Laws.RoundTrip.illegal8 ..
  | illegal9 => exact Laws.RoundTrip.illegal9 ..
  | illegalA => exact Laws.RoundTrip.illegalA ..
  | illegalB => exact Laws.RoundTrip.illegalB ..
  | illegalC => exact Laws.RoundTrip.illegalC ..
  | illegalD => exact Laws.RoundTrip.illegalD ..
  | illegalE => exact Laws.RoundTrip.illegalE ..
  | illegalF => exact Laws.RoundTrip.illegalF ..

/-- Settles O44: two states with constant tables hold the same memory, and the response reads nothing else. -/
theorem responseIsAFunctionOfTheCommand : Obligations.ResponseIsAFunctionOfTheCommand := by
  intro i s t hm he
  rw [← decodeWord_encode i] at he
  exact rsp_eq_answer hm he

/-! ## The events of the ports (10_state.md R23) -/

/-- At an accepting edge the command is accepted, and may complete. -/
theorem BlockEvent.of_accepts {s b : State} (h : BlockEvent s b) (ha : s.accepts = true) :
    b = s.accept (driverPins s.driver).cmd ∨
      exec (decodeWord (driverPins s.driver).cmd) (s.accept (driverPins s.driver).cmd) = .next b := by
  obtain ⟨-, hbusy, hrst⟩ := rspv_of_accepts ha
  cases h with
  | reset hr => simp [hrst] at hr
  | complete _ hb | goOn _ hb => simp [hbusy] at hb
  | take _ _ ht => simp [not_takes_of_accepts ha] at ht
  | accept => exact .inl rfl
  | acceptComplete _ _ _ _ _ he => exact .inr (by rwa [latched_accept] at he)
  | idle _ _ _ hn => simp [ha] at hn

/-- At an edge with no command in flight and none accepted the block changes in `RSPV` alone, and that when the response
is taken. -/
theorem BlockEvent.of_not_accepts {s b : State} (h : BlockEvent s b) (hr : s.rst = false) (hb : s.busy = false)
    (ha : s.accepts = false) : b = { s with rspv := s.rspv && !s.takes } := by
  cases h with
  | reset hr' => simp [hr] at hr'
  | complete _ hb' | goOn _ hb' => simp [hb] at hb'
  | take _ _ ht => simp [State.take, ht]
  | accept _ _ ha' | acceptComplete _ _ ha' => simp [ha] at ha'
  | idle _ _ ht => simp [ht]

/-- Settles O46, by the two events of an accepting edge. -/
theorem acceptLatchesTheCommand : Obligations.AcceptLatchesTheCommand := by
  intro s t hm ha hstep
  obtain ⟨b, hb, rfl⟩ := event_of_step hstep
  refine ⟨sameTables_of_mem_eq hb.mem_eq, ?_⟩
  obtain rfl | he := hb.of_accepts ha
  · exact ⟨latched_accept s _, .inl ⟨rfl, (rspv_of_accepts ha).1, rfl, rfl, rfl, rfl⟩⟩
  · have hc := completes_of_exec he
    obtain ⟨hrspv, hbusy, -⟩ := hc.answered
    have hrsp := rsp_eq_answer (s := s.accept _) hm he
    exact ⟨hc.sameLatches.latched_eq.trans (latched_accept s _), .inr ⟨hrsp, hrspv, hbusy⟩⟩

theorem not_accepts_of_rspv {s : State} (h : s.rspv = true) : s.accepts = false := by
  simp [State.accepts, State.cmdReady, h]

/-- Settles O47: at such an edge nothing of the block but `RSPV` may change. -/
theorem responseIsHeldUntilTaken : Obligations.ResponseIsHeldUntilTaken := by
  intro s t hr hb hstep
  obtain ⟨b, hev, rfl⟩ := event_of_step hstep
  refine ⟨fun hv => ?_, fun hv ha => ?_⟩
  · have ha := not_accepts_of_rspv hv
    obtain rfl := hev.of_not_accepts hr hb ha
    exact ⟨ha, hb, rfl, by simp [hv], sameTables_of_mem_eq rfl, ⟨rfl, rfl, rfl⟩, rfl, rfl, rfl⟩
  · obtain rfl := hev.of_not_accepts hr hb ha
    exact ⟨hb, rfl, by simp [hv], sameTables_of_mem_eq rfl, ⟨rfl, rfl, rfl⟩, rfl, rfl, rfl⟩

end Sys2Proof.Machine
end

section
/-! PROOFS. The statements of 20_memory.md: the cells of `FWD`, the contents and the invariants of the two tables, and
that nothing writes them. -/

namespace Sys2Proof.Machine

/-! ## The cells of `FWD` (20_memory.md R40, R44) -/

theorem exists_readFwd_iff (m : Memory) (a : Nat) : (∃ c, m.readFwd a = some c) ↔ a < 85 := by
  by_cases ha : a < 85
  · simp [readFwd_of_lt m ha, ha]
  · simp [readFwd_of_ge m (Nat.le_of_not_lt ha), ha]

/-- Settles O16: a cell is found at the addresses below 85, whatever the memory lists. -/
theorem forwardCellsAreZeroTo84 : Obligations.ForwardCellsAreZeroTo84 := fun m a =>
  (exists_readFwd_iff m a).trans Nat.lt_succ_iff

/-! ## Nothing writes the tables (20_memory.md R49) -/

/-- Settles O8: a step keeps the memory. -/
theorem noStepWritesATable : Obligations.NoStepWritesATable := fun _ _ h => sameTables_of_mem_eq (step_keeps_mem h)

/-! ## The contents of `FWD`, run by run (20_memory.md R41) -/

theorem fwdConst_digit : ∀ i, i < 10 → fwdConst i = BitVec.ofNat 8 (0x30 + i) := by decide

theorem fwdConst_capital : ∀ k, k < 26 → fwdConst (10 + k) = BitVec.ofNat 8 (0x41 + k) := by decide

theorem fwdConst_small : ∀ k, k < 26 → fwdConst (36 + k) = BitVec.ofNat 8 (0x61 + k) := by decide

theorem fwdConst_mark : ∀ k, k < 23 → some (fwdConst (62 + k)) = forwardMarks[k]? := by decide

/-! ## Reads of a memory that holds its constants (20_memory.md R41, R43) -/

section
variable {m : Memory} (hm : m.constant = true)
include hm

theorem readFwd_digit {i : Nat} (hi : i < 10) : m.readFwd i = some (BitVec.ofNat 8 (0x30 + i)) := by
  rw [readFwd_constant hm (by omega), fwdConst_digit i hi]

theorem readFwd_capital {i : Nat} (hlo : 10 ≤ i) (hhi : i < 36) :
    m.readFwd i = some (BitVec.ofNat 8 (0x41 + (i - 10))) := by
  rw [readFwd_constant hm (by omega), ← fwdConst_capital (i - 10) (by omega), Nat.add_sub_cancel' hlo]

theorem readFwd_small {i : Nat} (hlo : 36 ≤ i) (hhi : i < 62) :
    m.readFwd i = some (BitVec.ofNat 8 (0x61 + (i - 36))) := by
  rw [readFwd_constant hm (by omega), ← fwdConst_small (i - 36) (by omega), Nat.add_sub_cancel' hlo]

theorem readFwd_mark {k : Nat} (hk : k < 23) : m.readFwd (62 + k) = forwardMarks[k]? := by
  rw [readFwd_constant hm (by omega), fwdConst_mark k hk]

/-- R43 (a). -/
theorem readFwd_injective {i j : Nat} (hi : i ≤ 84) (hj : j ≤ 84) (h : m.readFwd i = m.readFwd j) : i = j := by
  have hi' : i < 85 := by omega
  have hj' : j < 85 := by omega
  rw [readFwd_constant hm hi', readFwd_constant hm hj'] at h
  exact congrArg Fin.val (fwdConst_injective (i := ⟨i, hi'⟩) (j := ⟨j, hj'⟩) (Option.some.inj h))

/-- R43 (b). -/
theorem readRev_readFwd {i : Nat} (hi : i ≤ 84) : ∃ c, m.readFwd i = some c ∧ (m.readRev c).toNat = i := by
  have hi' : i < 85 := by omega
  refine ⟨fwdConst i, readFwd_constant hm hi', ?_⟩
  rw [readRev_constant hm]
  exact revConst_fwdConst ⟨i, hi'⟩

/-- R43 (d). -/
theorem readRev_le {c : Byte} (h : m.readRev c ≠ 0xFF#8) : (m.readRev c).toNat ≤ 84 := by
  rw [readRev_constant hm] at h ⊢
  exact Nat.lt_succ_iff.mp (revConst_lt h)

/-- R43 (c). -/
theorem readFwd_readRev {c : Byte} (h : m.readRev c ≠ 0xFF#8) : m.readFwd (m.readRev c).toNat = some c := by
  rw [readRev_constant hm] at h ⊢
  rw [readFwd_constant hm (revConst_lt h), fwdConst_revConst h]

/-- R43 (e). -/
theorem readFwd_printable {i : Nat} {c : Byte} (h : m.readFwd i = some c) : 0x21 ≤ c.toNat ∧ c.toNat ≤ 0x7E := by
  have hi : i < 85 := (exists_readFwd_iff m i).mp ⟨c, h⟩
  rw [readFwd_constant hm hi] at h
  exact Option.some.inj h ▸ fwdConst_printable ⟨i, hi⟩

/-- R43 (f). -/
theorem readFwd_named : m.readFwd 0 = some 0x30#8 ∧ m.readFwd 84 = some 0x7E#8 ∧ m.readFwd 61 = some 0x7A#8 := by
  obtain ⟨h0, h84, h61⟩ := fwdConst_named
  refine ⟨?_, ?_, ?_⟩
  · rw [readFwd_constant hm (by decide), h0]
  · rw [readFwd_constant hm (by decide), h84]
  · rw [readFwd_constant hm (by decide), h61]

end

/-- Settles O15: the four runs of R41, then R43 (a) to (f). -/
theorem tablesAreInverse : Obligations.TablesAreInverse := fun _ hm =>
  ⟨fun _ => readFwd_digit hm, fun _ => readFwd_capital hm, fun _ => readFwd_small hm, fun _ => readFwd_mark hm,
    fun _ _ => readFwd_injective hm, fun _ => readRev_readFwd hm, fun _ => readFwd_readRev hm, fun _ => readRev_le hm,
    fun _ _ => readFwd_printable hm, readFwd_named hm⟩

end Sys2Proof.Machine
end

section
/-! PROOFS. The statements of 30_encoding.md: commands and responses as words, the reserved opcodes, the ignored fields,
the events and one whole transaction of the ports, and the assembly lines. -/

namespace Sys2Proof.Machine

/-! ## Command words (30_encoding.md R61, R64 to R73) -/

/-- The word written as six bytes, the most significant first, is the word (log entry 12). -/
theorem append_commandBytes (w : Command) :
    w.extractLsb' 40 8 ++ w.extractLsb' 32 8 ++ w.extractLsb' 24 8 ++ w.extractLsb' 16 8 ++ w.extractLsb' 8 8 ++
      w.extractLsb' 0 8 = w := by
  apply BitVec.eq_of_toNat_eq
  simp only [toNat_append_add, toNat_slice]
  omega

theorem decodeBytes_commandBytes (w : Command) : decodeBytes (commandBytes w) = .ok (decodeWord w) := by
  rw [commandBytes, decodeBytes, append_commandBytes]

/-- Settles O10: each constructor's word is read back field by field, and the bytes of a word give the word. -/
theorem decodeOfEncodeIsTheInstruction : Obligations.DecodeOfEncodeIsTheInstruction := fun i =>
  ⟨decodeWord_encode i, by rw [encodeBytes, decodeBytes_commandBytes, decodeWord_encode]⟩

/-- `DATA` from `DATA[39:8]` and `DATA[7:0]` (R70). -/
theorem data_eq_append_byte (d : Data) : (d.extractLsb' 8 32 ++ (charLanes d).l4 : Data) = d := by
  apply BitVec.eq_of_toNat_eq
  simp only [charLanes, toNat_append_add, toNat_slice]
  omega

/-- `DATA` from `DATA[39:32]` and `DATA[31:0]` (R69). -/
theorem data_eq_append_value (d : Data) : ((charLanes d).l0 ++ d.extractLsb' 0 32 : Data) = d := by
  apply BitVec.eq_of_toNat_eq
  simp only [charLanes, toNat_append_add, toNat_slice]
  omega

/-- `DATA` from its lanes, written out (R64). -/
theorem data_eq_append_lanes (d : Data) :
    ((charLanes d).l0 ++ (charLanes d).l1 ++ (charLanes d).l2 ++ (charLanes d).l3 ++ (charLanes d).l4 : Data) = d :=
  packChars_charLanes d

/-- The six commands and the ten reserved values of `OP` (R72, R73). -/
theorem op_cases (op : BitVec 4) :
    (op = 0x1#4 ∨ op = 0x2#4 ∨ op = 0x3#4 ∨ op = 0x4#4 ∨ op = 0x5#4 ∨ op = 0x6#4) ∨
      op = 0x0#4 ∨ op = 0x7#4 ∨ op = 0x8#4 ∨ op = 0x9#4 ∨ op = 0xA#4 ∨ op = 0xB#4 ∨ op = 0xC#4 ∨ op = 0xD#4 ∨
        op = 0xE#4 ∨ op = 0xF#4 := by
  revert op
  decide

theorem encode_decodeWord_packCommand (op len : BitVec 4) (d : Data) :
    encode (decodeWord (packCommand op len d)) = packCommand op len d := by
  obtain (rfl | rfl | rfl | rfl | rfl | rfl) | rfl | rfl | rfl | rfl | rfl | rfl | rfl | rfl | rfl | rfl :=
    op_cases op <;>
    simp [decodeWord, encode, data_eq_append_byte, data_eq_append_value, data_eq_append_lanes]

/-- Settles O11: a word is packed from its three fields, and each `OP` keeps all of them. -/
theorem encodeOfDecodeIsTheWord : Obligations.EncodeOfDecodeIsTheWord := by
  intro w
  rw [← packCommand_fields w]
  exact encode_decodeWord_packCommand _ _ _

/-- Settles O9, by running the decoder on the eight words. -/
theorem writtenWordsDecode : Obligations.WrittenWordsDecode := by
  unfold Obligations.WrittenWordsDecode
  decide

/-- Settles O12: only the first arm of the decoder, six bytes, answers an instruction. -/
theorem onlySixBytesDecode : Obligations.OnlySixBytesDecode := by
  intro bs
  constructor
  · rintro ⟨i, hi⟩
    unfold decodeBytes at hi
    split at hi
    · rfl
    · cases hi
  · intro h
    match bs, h with
    | [_, _, _, _, _, _], _ => exact ⟨_, rfl⟩

/-- Settles O13, by the laws of the response word. -/
theorem responseFieldsStandWhereR62Says : Obligations.ResponseFieldsStandWhereR62Says := fun r =>
  ⟨packResponse_toNat r, rspStatus_pack r, rspLen_pack r, rspReserved_pack r, rspOvf_pack r, rspErrpos_pack r,
    rspErrchar_pack r, rspData_pack r⟩

/-! ## Lanes (30_encoding.md R64, R65) -/

/-- `BY(j)` and `CH(j + 1)` are the same bits (R65). -/
theorem byteLanes_getD (d : Data) (j : Fin 4) : (byteLanes d).getD j.val 0#8 = laneGet (charLanes d) j.succ := by
  rw [byteLanes_eq]
  fin_cases j <;> rfl

theorem byteLanes_toNat (d : Data) (j : Fin 4) :
    ((byteLanes d).getD j.val 0#8).toNat = d.toNat / 2 ^ (24 - 8 * j.val) % 256 := by
  rw [byteLanes_getD, charLanes_toNat, Fin.val_succ, show 32 - 8 * (j.val + 1) = 24 - 8 * j.val by omega]

theorem laneGet_dataOfChars (cs : List Byte) (i : Fin 5) :
    laneGet (charLanes (dataOfChars cs)) i = cs.getD i.val 0#8 := by
  rw [charLanes_dataOfChars, laneGet_lanesOf]

theorem byteLanes_dataOfBytes_getD (bs : List Byte) (j : Fin 4) :
    (byteLanes (dataOfBytes bs)).getD j.val 0#8 = bs.getD j.val 0#8 := by
  rw [byteLanes_getD, charLanes_dataOfBytes, laneGet_lanesOf, Fin.val_succ, List.getD_cons_succ]

theorem bigEndian_byteLanes (d : Data) : bigEndian (byteLanes d) = d.extractLsb' 0 32 := by
  apply BitVec.eq_of_toNat_eq
  rw [bigEndian_toNat (byteLanes d) (Nat.le_refl 4), toNat_slice]
  simp only [byteLanes, rawValue, List.getD_cons_zero, List.getD_cons_succ, toNat_slice]
  omega

/-- Settles O14: the bytes of a field are its last four character lanes. -/
theorem lanesStandWhereR64AndR65Say : Obligations.LanesStandWhereR64AndR65Say :=
  ⟨charLanes_toNat, byteLanes_toNat, laneGet_dataOfChars, byteLanes_dataOfBytes_getD,
    fun bs => by rw [charLanes_dataOfBytes]; rfl, byteLanes_getD, bigEndian_byteLanes⟩

/-! ## Responses (30_encoding.md R62, R71, R73; 60_exceptions.md R174, R178) -/

/-- Settles O40: a command completes with a success or an error response, and both are legal. -/
theorem everyResponseIsLegal : Obligations.EveryResponseIsLegal := fun _ _ _ h => (completes_of_exec h).rsp_legal

/-- The ten instructions that select no command (R73). -/
def reservedInstrs (len : BitVec 4) (d : Data) : List Instr :=
  [.illegal0 len d, .illegal7 len d, .illegal8 len d, .illegal9 len d, .illegalA len d, .illegalB len d,
    .illegalC len d, .illegalD len d, .illegalE len d, .illegalF len d]

/-- Which words are reserved (R73). -/
theorem decodeWord_mem_reserved_iff (w : Command) :
    decodeWord w ∈ reservedInstrs (commandLen w) (commandData w) ↔ commandOp w = 0#4 ∨ 7 ≤ (commandOp w).toNat := by
  obtain (h | h | h | h | h | h) | h | h | h | h | h | h | h | h | h | h := op_cases (commandOp w) <;>
    simp [decodeWord, reservedInstrs, h]

theorem exec_reserved {len : BitVec 4} {d : Data} {i : Instr} (hi : i ∈ reservedInstrs len d) (s : State) :
    exec i s = .next (s.complete (errorWord .illegalCommand 0#4 0#8)) := by
  fin_cases hi <;> rfl

/-- Settles O38: all ten share one meaning, which completes with the error response. -/
theorem illegalOpcodesAnswerIllegalCommand : Obligations.IllegalOpcodesAnswerIllegalCommand :=
  ⟨decodeWord_mem_reserved_iff, fun _ _ s _ hi =>
    ⟨_, exec_reserved hi s, ⟨rfl, rfl, rfl⟩, rfl, ⟨rfl, rfl, rfl, rfl, rfl, rfl⟩, rfl, rfl, rfl⟩⟩

/-- Instructions with one meaning right after reset are answered alike. -/
theorem answer_encode_congr {i i' : Instr} (h : exec i State.reset = exec i' State.reset) :
    answer (encode i) = answer (encode i') := by
  simp only [answer, decodeWord_encode, h]

theorem answer_of_reserved {w : Command} (h : commandOp w = 0#4 ∨ 7 ≤ (commandOp w).toNat) :
    answer w = errorWord .illegalCommand 0#4 0#8 := by
  simp only [answer, exec_reserved ((decodeWord_mem_reserved_iff w).mpr h), State.complete_rsp]

/-- Sequences that agree below `l` have the same first `l` elements. -/
theorem take_ofFn_congr {α : Type} {n l : Nat} {f g : Fin n → α} (h : ∀ k : Fin n, k.val < l → f k = g k) :
    (List.ofFn f).take l = (List.ofFn g).take l := by
  apply List.ext_getElem (by simp)
  intro k hk _
  simp only [List.length_take, List.length_ofFn, lt_inf_iff] at hk
  simp only [List.getElem_take, List.getElem_ofFn]
  exact h ⟨k, hk.2⟩ hk.1

/-- ENCB reads its first `LEN` bytes (R67). -/
theorem execEncb_congr (len : BitVec 4) (j j' : Byte) {b b' : Fin 4 → Byte}
    (h : ∀ k : Fin 4, k.val < len.toNat → b k = b' k) (s : State) :
    execEncb len j (b 0) (b 1) (b 2) (b 3) s = execEncb len j' (b' 0) (b' 1) (b' 2) (b' 3) s := by
  have ht : [b 0, b 1, b 2, b 3].take len.toNat = [b' 0, b' 1, b' 2, b' 3].take len.toNat := take_ofFn_congr h
  rw [execEncb, execEncb, ht]

/-- DECB reads its first `LEN` characters (R68). -/
theorem execDecb_congr (len : BitVec 4) {c c' : Five Byte}
    (h : ∀ k : Fin 5, k.val < len.toNat → laneGet c k = laneGet c' k) (s : State) :
    execDecb len c s = execDecb len c' s := by
  have ht : (laneList c).take len.toNat = (laneList c').take len.toNat := take_ofFn_congr h
  rw [execDecb, execDecb, ht]

/-- Settles O45: the meanings of A2C, C2A, ENCW and DECW do not use the ignored fields, those of ENCB and DECB use the
lanes below `LEN`, and all reserved words have one answer. -/
theorem ignoredFieldsDoNotMatter : Obligations.IgnoredFieldsDoNotMatter :=
  ⟨fun _ _ _ _ _ => answer_encode_congr rfl, fun _ _ _ _ _ => answer_encode_congr rfl,
    fun _ _ _ _ _ => answer_encode_congr rfl, fun _ _ _ => answer_encode_congr rfl,
    fun l j j' _ _ h => answer_encode_congr (execEncb_congr l j j' h _),
    fun l _ _ h => answer_encode_congr (execDecb_congr l h _),
    fun _ _ hop h => (answer_of_reserved h).trans (answer_of_reserved (hop ▸ h)).symm⟩

/-! ## A step and the instruction (30_encoding.md R63; 10_state.md R23) -/

/-- The command in flight completes when no further edge is due, else it uses up one edge (log entry 5). -/
theorem BlockEvent.of_busy {s b : State} (h : BlockEvent s b) (hr : s.rst = false) (hb : s.busy = true) :
    (s.wait ≤ 1 ∧ exec (decodeWord s.latched) s = .next b) ∨ (2 ≤ s.wait ∧ b = { s with wait := s.wait - 1 }) := by
  cases h with
  | reset hr' => simp [hr] at hr'
  | complete _ _ hw _ he => exact .inl ⟨hw, he⟩
  | goOn _ _ hw => exact .inr ⟨hw, rfl⟩
  | take _ hb' | accept _ hb' | acceptComplete _ hb' | idle _ hb' => simp [hb] at hb'

/-- The latency of an accepted command decides whether it completes at the accepting edge (R63, log entry 4). -/
theorem BlockEvent.latency_of_accepts {s b : State} (h : BlockEvent s b) (ha : s.accepts = true) :
    (Config.latency s.draws (driverPins s.driver).cmd ≠ 0 ∧ b = s.accept (driverPins s.driver).cmd) ∨
      (Config.latency s.draws (driverPins s.driver).cmd = 0 ∧
        exec (decodeWord (driverPins s.driver).cmd) (s.accept (driverPins s.driver).cmd) = .next b) := by
  obtain ⟨-, hbusy, hrst⟩ := rspv_of_accepts ha
  cases h with
  | reset hr => simp [hrst] at hr
  | complete _ hb | goOn _ hb => simp [hbusy] at hb
  | take _ _ ht => simp [not_takes_of_accepts ha] at ht
  | accept _ _ _ hl => exact .inl ⟨hl, rfl⟩
  | acceptComplete _ _ _ hl _ he => exact .inr ⟨hl, by rwa [latched_accept] at he⟩
  | idle _ _ _ hn => simp [ha] at hn

/-- Settles O7: one event of the block for each of the three edges. -/
theorem stepRunsTheDecodedInstruction : Obligations.StepRunsTheDecodedInstruction := by
  refine ⟨fun s i hr hb hw hi => ?_, fun s hr hb hw => ?_, fun s i ha hi => ?_⟩
  · obtain ⟨b, hblock, hev⟩ := blockEdge_event s
    obtain ⟨-, he⟩ | ⟨hw', -⟩ := hev.of_busy hr hb
    · rw [hi, decodeWord_encode] at he
      exact ⟨b, he, step_of_blockEdge hblock⟩
    · omega
  · obtain ⟨b, hblock, hev⟩ := blockEdge_event s
    obtain ⟨hw', -⟩ | ⟨-, rfl⟩ := hev.of_busy hr hb
    · omega
    · exact step_of_blockEdge hblock
  · obtain ⟨b, hblock, hev⟩ := blockEdge_event s
    have hlat := hev.latency_of_accepts ha
    rw [hi] at hlat
    obtain ⟨hl, rfl⟩ | ⟨hl, he⟩ := hlat
    · obtain ⟨t, ht, -⟩ := exec_completes i (s.accept (encode i))
      exact ⟨t, ht, by rw [if_neg hl, step_of_blockEdge hblock]⟩
    · rw [decodeWord_encode] at he
      exact ⟨b, he, by rw [if_pos hl, step_of_blockEdge hblock]⟩

/-! ## One transaction (30_encoding.md R63; 70_reset_and_hazards.md R202) -/

/-- What a run of the block has come to when the response `w` stands: the command completed, the tables are constant, and
no `rst` is due. -/
structure Responded (w : ResponseWord) (t : State) : Prop where
  answered : Answered t w
  constant : t.mem.constant = true
  noRst : t.rstIn = []

theorem rst_of_rstIn_nil {s : State} (h : s.rstIn = []) : s.rst = false := by simp [State.rst, h]

/-- The command that completes from `s` answers its word. -/
theorem responded_of_exec {w : Command} {s u t : State} (hm : s.mem.constant = true) (hr : u.rstIn = [])
    (h : exec (decodeWord w) s = .next t) : Responded (answer w) (u.outsideEdge t) := by
  have hc := completes_of_exec h
  obtain ⟨hrspv, hbusy, -⟩ := hc.answered
  have hrsp : t.rsp = answer w := rsp_eq_answer hm h
  exact ⟨⟨hrsp, hrspv, hbusy⟩, by simpa [hc.mem_eq] using hm, by simp [hr]⟩

/-- A command in flight is answered after finitely many edges, by induction on the number of edges due (R202). -/
theorem run_busy_responds {s : State} (hm : s.mem.constant = true) (hb : s.busy = true) (hr : s.rstIn = []) :
    ∃ k t, Host.Core.run core k s = .next t ∧ Responded (answer s.latched) t := by
  induction hn : s.wait using Nat.strong_induction_on generalizing s with
  | _ n ih =>
    obtain ⟨b, hblock, hev⟩ := blockEdge_event s
    have hstep := step_of_blockEdge hblock
    obtain ⟨-, he⟩ | ⟨hw, rfl⟩ := hev.of_busy (rst_of_rstIn_nil hr) hb
    · exact ⟨1, _, run_succ 0 hstep, responded_of_exec hm hr he⟩
    · obtain ⟨k, t, hrun, ht⟩ := ih (s.wait - 1) (by omega) (s := s.outsideEdge { s with wait := s.wait - 1 }) hm hb
        (by simp [hr]) rfl
      exact ⟨k + 1, t, (run_succ k hstep).trans hrun, ht⟩

/-- A command presented to an idle block is answered (R63). -/
theorem run_accepts_responds {s : State} (hm : s.mem.constant = true) (ha : s.accepts = true) (hr : s.rstIn = []) :
    ∃ k t, Host.Core.run core k s = .next t ∧ Responded (answer (driverPins s.driver).cmd) t := by
  obtain ⟨b, hblock, hev⟩ := blockEdge_event s
  have hrun := run_succ 0 (step_of_blockEdge hblock)
  obtain rfl | he := hev.of_accepts ha
  · obtain ⟨k, t, hk, ht⟩ := run_busy_responds (s := s.outsideEdge (s.accept (driverPins s.driver).cmd)) hm rfl
      (by simp [hr])
    exact ⟨1 + k, t, run_trans hrun hk, by rwa [← latched_accept s (driverPins s.driver).cmd]⟩
  · exact ⟨1, _, hrun, responded_of_exec (s := s.accept _) hm hr he⟩

theorem step_of_takes {s : State} (hb : s.busy = false) (ht : s.takes = true) :
    step s = .next (s.outsideEdge s.take) := by
  have hr : s.rst = false := by
    simp only [State.takes, State.rspValid, Bool.and_eq_true, Bool.not_eq_true'] at ht
    exact ht.1.2
  exact step_of_blockEdge (by simp [State.blockEdge, hr, hb, ht])

/-- Settles O50: the word is accepted, its response stands after finitely many edges, and the next edge takes it. -/
theorem transactionReturnsTheAnswer : Obligations.TransactionReturnsTheAnswer := by
  intro s w hm hb hv hr hd
  have ha : s.accepts = true := by simp [State.accepts, State.cmdReady, hb, hv, rst_of_rstIn_nil hr, hd, driverPins]
  obtain ⟨n, t, hrun, ht⟩ := run_accepts_responds hm ha hr
  simp only [hd, driverPins, List.headD_cons] at ht
  obtain ⟨⟨hrsp, hrspv, hbusy⟩, hmt, hrt⟩ := ht
  have hmem : t.mem = s.mem := (Memory.eq_reset_of_constant hmt).trans (Memory.eq_reset_of_constant hm).symm
  refine ⟨n, t, hrun, by simp [State.rspPort, State.rspValid, State.rst, hrsp, hrspv, hrt], _,
    step_of_takes hbusy (by simp [State.takes, State.rspValid, State.rst, driverPins, hrspv, hrt]), rfl, hbusy, ?_,
    sameTables_of_mem_eq hmem⟩
  simp [State.cmdReady, State.rst, hrt, hbusy]

/-! ## One line, one word (30_encoding.md R77) -/

theorem asBytes_map_toNat (bs : List Byte) : asBytes (bs.map BitVec.toNat) = some bs := by
  have h : (bs.map BitVec.toNat).all (· < 256) = true := by
    simp only [List.all_map, List.all_eq_true, Function.comp_apply, decide_eq_true_eq]
    exact fun b _ => b.isLt
  simp [asBytes, h, Function.comp_def]

/-- The number of an operand in the low bits of `DATA`, the ignored bits above it 0 (R77). -/
theorem ofNat_toNat_eq_append {m : Nat} (k : Nat) (x : BitVec m) : BitVec.ofNat (k + m) x.toNat = 0#k ++ x := by
  apply BitVec.eq_of_toNat_eq
  rw [toNat_append_add, BitVec.toNat_ofNat]
  have := Nat.pow_le_pow_right (n := 2) (by decide) (Nat.le_add_left m k)
  simp [Nat.mod_eq_of_lt (Nat.lt_of_lt_of_le x.isLt this)]

/-- `ENCB` of these bytes with this `LEN`, an ignored field 0 (R77). -/
def encbOf (n : BitVec 4) (bs : List Byte) : Command :=
  encode (.encb n 0#8 (bs.getD 0 0#8) (bs.getD 1 0#8) (bs.getD 2 0#8) (bs.getD 3 0#8))

/-- `DECB` of these characters with this `LEN`, an ignored field 0 (R77). -/
def decbOf (n : BitVec 4) (cs : List Byte) : Command :=
  encode (.decb n ⟨cs.getD 0 0#8, cs.getD 1 0#8, cs.getD 2 0#8, cs.getD 3 0#8, cs.getD 4 0#8⟩)

theorem encbWord_eq (bs : List Byte) : encbWord bs = encbOf (BitVec.ofNat 4 bs.length) bs := rfl

theorem decbWord_eq (cs : List Byte) : decbWord cs = decbOf (BitVec.ofNat 4 cs.length) cs := rfl

theorem asmBytes_eq {n : Nat} (hn : n < 16) {bs : List Byte} (h : bs.length ≤ 4) :
    asmBytes n (bs.map BitVec.toNat) = some [encbOf (BitVec.ofNat 4 n) bs] := by
  rw [asmBytes, if_pos ⟨hn, by simpa using h⟩, asBytes_map_toNat]
  rfl

theorem asmChars_eq {n : Nat} (hn : n < 16) {cs : List Byte} (h : cs.length ≤ 5) :
    asmChars n (cs.map BitVec.toNat) = some [decbOf (BitVec.ofNat 4 n) cs] := by
  rw [asmChars, if_pos ⟨hn, by simpa using h⟩, asBytes_map_toNat]
  rfl

theorem assemble_a2c (idx : Byte) : assemble (.a2c idx.toNat) = some [encode (.a2c 0#4 0#32 idx)] := by
  rw [assemble, if_pos idx.isLt, ofNat_toNat_eq_append 32 idx, encode]

theorem assemble_c2a (chr : Byte) : assemble (.c2a chr.toNat) = some [encode (.c2a 0#4 0#32 chr)] := by
  rw [assemble, if_pos chr.isLt, ofNat_toNat_eq_append 32 chr, encode]

theorem assemble_encw (v : Value) : assemble (.encw v.toNat) = some [encode (.encw 0#4 0#8 v)] := by
  rw [assemble, if_pos v.isLt, ofNat_toNat_eq_append 8 v, encode]

theorem assemble_decw (x : Five Byte) :
    assemble (.decw ((laneList x).map BitVec.toNat)) = some [encode (.decw 0#4 x)] := by
  rw [assemble, List.length_map, if_pos (laneList_length x), asBytes_map_toNat]
  rfl

theorem assemble_encb {bs : List Byte} (h1 : 1 ≤ bs.length) (h4 : bs.length ≤ 4) :
    assemble (.encb (bs.map BitVec.toNat)) = some [encbOf (BitVec.ofNat 4 bs.length) bs] := by
  rw [assemble, List.length_map, if_pos h1, asmBytes_eq (by omega) h4]

theorem assemble_encbN (n : BitVec 4) {bs : List Byte} (h4 : bs.length ≤ 4) :
    assemble (.encbN n.toNat (bs.map BitVec.toNat)) = some [encbOf n bs] := by
  rw [assemble, asmBytes_eq n.isLt h4, BitVec.ofNat_toNat, BitVec.setWidth_eq]

theorem assemble_decb {cs : List Byte} (h2 : 2 ≤ cs.length) (h5 : cs.length ≤ 5) :
    assemble (.decb (cs.map BitVec.toNat)) = some [decbOf (BitVec.ofNat 4 cs.length) cs] := by
  rw [assemble, List.length_map, if_pos h2, asmChars_eq (by omega) h5]

theorem assemble_decbN (n : BitVec 4) {cs : List Byte} (h5 : cs.length ≤ 5) :
    assemble (.decbN n.toNat (cs.map BitVec.toNat)) = some [decbOf n cs] := by
  rw [assemble, asmChars_eq n.isLt h5, BitVec.ofNat_toNat, BitVec.setWidth_eq]

theorem assemble_word (w : Command) : assemble (.word w.toNat) = some [w] := by
  rw [assemble, if_pos w.isLt, BitVec.ofNat_toNat, BitVec.setWidth_eq]

/-! ## Groups by number (30_encoding.md R79; 43_stream_host.md R144, R151) -/

/-- The first `k` groups of `n` elements, in order. -/
def groupsOf (n k : Nat) (l : List Byte) : List (List Byte) := (List.range k).map fun g => (l.drop (n * g)).take n

/-- The first group, then the groups of what follows it. -/
theorem groupsOf_succ (n k : Nat) (l : List Byte) : groupsOf n (k + 1) l = l.take n :: groupsOf n k (l.drop n) := by
  rw [groupsOf, List.range_succ_eq_map, List.map_cons, List.map_map]
  simp [groupsOf, Function.comp_def, Nat.mul_succ, Nat.add_comm]

theorem groupsOfFour_eq (bs : List Byte) :
    groupsOfFour bs = (groupsOf 4 (bs.length / 4) bs, bs.drop (4 * (bs.length / 4))) := by
  induction bs using groupsOfFour_induction with
  | full b0 b1 b2 b3 rest ih =>
    have hk : (b0 :: b1 :: b2 :: b3 :: rest).length / 4 = rest.length / 4 + 1 := by simp only [List.length_cons]; omega
    rw [groupsOfFour, ih, hk, groupsOf_succ, Nat.mul_succ]
    rfl
  | none => rfl
  | short bs h1 h4 =>
    rw [groupsOfFour_short bs h4, Nat.div_eq_of_lt h4]
    rfl

theorem groupsOfFive_short (cs : List Byte) (h : cs.length < 5) : groupsOfFive cs = ([], cs) := by
  match cs, h with
  | [], _ => rfl
  | [_], _ => rfl
  | [_, _], _ => rfl
  | [_, _, _], _ => rfl
  | [_, _, _, _], _ => rfl

theorem groupsOfFive_eq (cs : List Byte) :
    groupsOfFive cs = (groupsOf 5 (cs.length / 5) cs, cs.drop (5 * (cs.length / 5))) := by
  induction cs using groupsOfFive_induction with
  | full c0 c1 c2 c3 c4 rest ih =>
    have hk : (c0 :: c1 :: c2 :: c3 :: c4 :: rest).length / 5 = rest.length / 5 + 1 := by
      simp only [List.length_cons]; omega
    rw [groupsOfFive, ih, hk, groupsOf_succ, Nat.mul_succ]
    rfl
  | none => rfl
  | one c =>
    rw [groupsOfFive_short [c] (by simp), Nat.div_eq_of_lt (by simp)]
    rfl
  | short cs h2 h5 =>
    rw [groupsOfFive_short cs h5, Nat.div_eq_of_lt h5]
    rfl

/-- Every group but what is left over is full. -/
theorem length_of_mem_groupsOf {n : Nat} {l g : List Byte} (h : g ∈ groupsOf n (l.length / n) l) : g.length = n := by
  obtain ⟨i, hi, rfl⟩ := List.mem_map.mp h
  have hi : n * (i + 1) ≤ n * (l.length / n) := Nat.mul_le_mul_left n (List.mem_range.mp hi)
  have hd := Nat.mul_div_le l.length n
  rw [Nat.mul_succ] at hi
  rw [List.length_take, List.length_drop]
  omega

/-- What full groups leave over. -/
theorem length_drop_groups (n : Nat) (l : List Byte) : (l.drop (n * (l.length / n))).length = l.length % n := by
  rw [List.length_drop, Nat.mod_eq_sub_mul_div]

/-! ## `ENCODE` and `DECODE` (30_encoding.md R79) -/

/-- The commands of the full groups and of what is left over, for a command made of its length and its block. -/
theorem map_groups {n : Nat} {word : List Byte → Command} {mk : BitVec 4 → List Byte → Command}
    (hmk : ∀ b, word b = mk (BitVec.ofNat 4 b.length) b) (l : List Byte) (p : Prop) [Decidable p] :
    (groupsOf n (l.length / n) l ++ if p then [] else [l.drop (n * (l.length / n))]).map word =
      ((List.range (l.length / n)).map fun g => mk (BitVec.ofNat 4 n) ((l.drop (n * g)).take n)) ++
        if p then [] else [mk (BitVec.ofNat 4 (l.length % n)) (l.drop (n * (l.length / n)))] := by
  have hfull : (groupsOf n (l.length / n) l).map word = (groupsOf n (l.length / n) l).map (mk (BitVec.ofNat 4 n)) :=
    List.map_congr_left fun g hg => by rw [hmk, length_of_mem_groupsOf hg]
  rw [List.map_append, hfull, groupsOf, List.map_map, apply_ite (List.map word), List.map_singleton, hmk,
    length_drop_groups]
  rfl

theorem encodeBlocks_eq (bs : List Byte) :
    encodeBlocks bs =
      groupsOf 4 (bs.length / 4) bs ++ if bs.length % 4 = 0 then [] else [bs.drop (4 * (bs.length / 4))] := by
  simp only [encodeBlocks, groupsOfFour_eq, List.isEmpty_iff_length_eq_zero, length_drop_groups]

theorem assemble_encode (bs : List Byte) :
    assemble (.encode (bs.map BitVec.toNat)) =
      some (((List.range (bs.length / 4)).map fun g => encbOf 4#4 ((bs.drop (4 * g)).take 4)) ++
        (if bs.length % 4 = 0 then []
          else [encbOf (BitVec.ofNat 4 (bs.length % 4)) (bs.drop (4 * (bs.length / 4)))])) := by
  rw [assemble, asBytes_map_toNat, Option.map_some, expandEncode, encodeBlocks_eq, map_groups encbWord_eq]

/-- Commands up to the first failing one begin the list; all but the last succeed, and the last fails where any is left. -/
theorem upToFailure_split (ws : List Command) :
    ∃ rest, ws = upToFailure ws ++ rest ∧ (∀ w ∈ (upToFailure ws).dropLast, rspStatus (answer w) = 0#4) ∧
      (rest ≠ [] → ∃ w, (upToFailure ws).getLast? = some w ∧ rspStatus (answer w) ≠ 0#4) := by
  induction ws with
  | nil => exact ⟨[], rfl, by simp [upToFailure], by simp⟩
  | cons w ws ih =>
    by_cases hw : rspStatus (answer w) = 0#4
    · obtain ⟨rest, hrest, hok, hlast⟩ := ih
      have hcons : upToFailure (w :: ws) = w :: upToFailure ws := if_pos hw
      rw [hcons]
      refine ⟨rest, by rw [List.cons_append, ← hrest], fun x hx => ?_, fun hne => ?_⟩
      · rcases eq_or_ne (upToFailure ws) [] with hnil | hnil
        · simp [hnil] at hx
        · rw [List.dropLast_cons_of_ne_nil hnil, List.mem_cons] at hx
          obtain rfl | hx := hx
          exacts [hw, hok x hx]
      · obtain ⟨x, hx, hfail⟩ := hlast hne
        exact ⟨x, by simp [List.getLast?_cons, hx], hfail⟩
    · have hone : upToFailure (w :: ws) = [w] := if_neg hw
      rw [hone]
      exact ⟨ws, rfl, by simp, fun _ => ⟨w, rfl, hw⟩⟩

/-- A block answered `OK` is written, and the rest decides how the decode ends (R147). -/
theorem decodeBlock_of_ok {block : List Byte} (h : rspStatus (answer (decbWord block)) = 0#4) (pos : Nat)
    (rest : DecodeOutcome) :
    decodeBlock pos block rest = ⟨rspBytes (answer (decbWord block)) ++ rest.out, rest.result⟩ := if_pos h

/-- With one character left over and every full block answered `OK`, a decode ends with `TruncatedInput` (R148). -/
theorem decodeChars_truncated (pos : Nat) (cs : List Byte) (h1 : cs.length % 5 = 1)
    (hok : ∀ g ∈ (groupsOfFive cs).1, rspStatus (answer (decbWord g)) = 0#4) :
    (decodeChars pos cs).result = .truncatedInput := by
  induction cs using groupsOfFive_induction generalizing pos with
  | full c0 c1 c2 c3 c4 rest ih =>
    rw [groupsOfFive, List.forall_mem_cons] at hok
    obtain ⟨hblock, hrest⟩ := hok
    rw [decodeChars, decodeBlock_of_ok hblock]
    exact ih (pos + 5) (by simp only [List.length_cons] at h1; omega) hrest
  | none => simp at h1
  | one c => rfl
  | short cs h2 h5 => omega

/-- The commands of a text before any failure: its full groups and, from two characters on, what is left over. -/
theorem expandDecode_eq (text : List Byte) :
    expandDecode text =
      upToFailure
        (((List.range ((dropWhitespace text).length / 5)).map fun g =>
            decbOf 5#4 (((dropWhitespace text).drop (5 * g)).take 5)) ++
          if (dropWhitespace text).length % 5 ≤ 1 then []
          else [decbOf (BitVec.ofNat 4 ((dropWhitespace text).length % 5))
            ((dropWhitespace text).drop (5 * ((dropWhitespace text).length / 5)))]) := by
  simp only [expandDecode, groupsOfFive_eq, length_drop_groups]
  rw [map_groups decbWord_eq]

theorem assemble_decode (text : List Byte) :
    assemble (.decode (text.map BitVec.toNat)) = some (expandDecode text) := by
  rw [assemble, asBytes_map_toNat, Option.map_some]

/-- Commands that all succeed are not cut. -/
theorem upToFailure_of_ok {ws : List Command} (h : ∀ w ∈ upToFailure ws, rspStatus (answer w) = 0#4) :
    upToFailure ws = ws := by
  obtain ⟨rest, hrest, -, hlast⟩ := upToFailure_split ws
  obtain rfl : rest = [] := by
    by_contra hne
    obtain ⟨w, hw, hfail⟩ := hlast hne
    exact hfail (h w (List.mem_of_getLast? hw))
  rw [List.append_nil] at hrest
  exact hrest.symm

/-- The host's result where one character is left over and each of `DECODE`'s commands is answered `OK` (R79, R148). -/
theorem decodeText_truncated {text : List Byte} (h1 : (dropWhitespace text).length % 5 = 1)
    (hok : ∀ w ∈ expandDecode text, rspStatus (answer w) = 0#4) : (decodeText text).result = .truncatedInput := by
  refine decodeChars_truncated 0 _ h1 fun g hg => ?_
  rw [expandDecode, upToFailure_of_ok hok] at hok
  exact hok _ (List.mem_map_of_mem (List.mem_append_left _ hg))

/-- Settles O59: one equation for each kind of line; a `DECODE` is cut at its first failure. -/
theorem notationAssembles : Obligations.NotationAssembles := by
  refine ⟨assemble_a2c, assemble_c2a, assemble_encw, assemble_decw, fun _ => assemble_encb, fun n _ => assemble_encbN n,
    fun _ => assemble_decb, fun n _ => assemble_decbN n, assemble_word, assemble_encode, fun text => ?_⟩
  obtain ⟨rest, hall, hok, hlast⟩ := upToFailure_split _
  rw [← expandDecode_eq text] at hall hok hlast
  exact ⟨_, rest, assemble_decode text, hall, hok, hlast, decodeText_truncated⟩

end Sys2Proof.Machine
end

section
/-! PROOFS. The statements of 40_alphabet_lookup.md on commands: what A2C and C2A answer, and their laws as a pair. -/

namespace Sys2Proof.Machine

/-! ## The answer of one lookup (40_alphabet_lookup.md R90, R91) -/

/-- The response R90 gives an index. -/
def a2cResponse (idx : Byte) : ResponseWord :=
  if idx.toNat ≤ 84 then okWord 1#4 ((fwdConst idx.toNat).setWidth 40) false
  else errorWord .contractViolation 0#4 idx

/-- The response R91 gives a character code. -/
def c2aResponse (chr : Byte) : ResponseWord :=
  if InAlphabet chr then okWord 1#4 ((revConst chr).setWidth 40) false
  else errorWord .invalidCharacter 0#4 chr

section
variable {s : State} (hm : s.mem.constant = true)
include hm

theorem exec_a2c_eq (len : BitVec 4) (junk : BitVec 32) (idx : Byte) :
    exec (.a2c len junk idx) s = .next (s.complete (a2cResponse idx)) := by
  rw [exec, execA2c, a2cResponse]
  by_cases h : idx.toNat ≤ 84
  · rw [if_neg (Nat.not_lt.mpr h), readFwd_constant hm (Nat.lt_succ_of_le h), if_pos h]
    rfl
  · rw [if_pos (Nat.lt_of_not_le h), if_neg h]
    rfl

theorem exec_c2a_eq (len : BitVec 4) (junk : BitVec 32) (chr : Byte) :
    exec (.c2a len junk chr) s = .next (s.complete (c2aResponse chr)) := by
  rw [exec, execC2a, c2aResponse, readRev_constant hm, ite_not]
  split <;> rfl

end

/-- Settles O17: an index up to 84 has a cell of `FWD`, and no other index is looked up. -/
theorem a2cAnswersTheCharacter : Obligations.A2cAnswersTheCharacter := fun len junk idx =>
  ⟨decodeWord_encode (.a2c len junk idx), fun _ hm => ⟨_, exec_a2c_eq hm len junk idx, rfl, rfl, rfl⟩⟩

/-- Settles O18: every code has a cell of `REV`, which marks those that are no character. -/
theorem c2aAnswersTheDigit : Obligations.C2aAnswersTheDigit := fun len junk chr =>
  ⟨decodeWord_encode (.c2a len junk chr), fun _ hm => ⟨_, exec_c2a_eq hm len junk chr, rfl, rfl, rfl⟩⟩

/-! ## The lookups as a pair (40_alphabet_lookup.md R92) -/

@[simp] theorem answer_a2c (len : BitVec 4) (junk : BitVec 32) (idx : Byte) :
    answer (encode (.a2c len junk idx)) = a2cResponse idx := by
  simp only [answer, decodeWord_encode, exec_a2c_eq (s := State.reset) rfl, State.complete_rsp]

@[simp] theorem answer_c2a (len : BitVec 4) (junk : BitVec 32) (chr : Byte) :
    answer (encode (.c2a len junk chr)) = c2aResponse chr := by
  simp only [answer, decodeWord_encode, exec_c2a_eq (s := State.reset) rfl, State.complete_rsp]

theorem a2cResponse_of_le {i : Byte} (h : i.toNat ≤ 84) :
    a2cResponse i = okWord 1#4 ((fwdConst i.toNat).setWidth 40) false := if_pos h

theorem c2aResponse_of_inAlphabet {c : Byte} (h : InAlphabet c) :
    c2aResponse c = okWord 1#4 ((revConst c).setWidth 40) false := if_pos h

theorem rspStatus_a2cResponse (i : Byte) : rspStatus (a2cResponse i) = if i.toNat ≤ 84 then 0#4 else 3#4 := by
  rw [a2cResponse, apply_ite rspStatus, rspStatus_okWord, rspStatus_errorWord, statusCode]

theorem rspStatus_c2aResponse (c : Byte) : rspStatus (c2aResponse c) = if InAlphabet c then 0#4 else 1#4 := by
  rw [c2aResponse, apply_ite rspStatus, rspStatus_okWord, rspStatus_errorWord, statusCode]

theorem rspStatus_a2cResponse_eq_zero_iff (i : Byte) : rspStatus (a2cResponse i) = 0#4 ↔ i.toNat ≤ 84 := by
  simp [rspStatus_a2cResponse]

theorem rspStatus_c2aResponse_eq_zero_iff (c : Byte) : rspStatus (c2aResponse c) = 0#4 ↔ InAlphabet c := by
  simp [rspStatus_c2aResponse]

theorem rspStatus_c2aResponse_eq_one_iff (c : Byte) : rspStatus (c2aResponse c) = 1#4 ↔ ¬InAlphabet c := by
  simp [rspStatus_c2aResponse]

/-- A success response of one byte tells that byte. -/
theorem okWord_byte_injective {x y : Byte} {len : BitVec 4} {o : Bool}
    (h : okWord len (x.setWidth 40) o = okWord len (y.setWidth 40) o) : x = y := by
  have hd : x.setWidth 40 = y.setWidth 40 := by simpa using congrArg rspData h
  simpa using congrArg (BitVec.setWidth 8) hd

/-- R92 (a): the index of a character comes back from the character. -/
theorem c2aResponse_fwdConst {i : Byte} (h : i.toNat ≤ 84) :
    c2aResponse (fwdConst i.toNat) = okWord 1#4 (i.setWidth 40) false := by
  have hi : i.toNat < 85 := Nat.lt_succ_of_le h
  rw [c2aResponse_of_inAlphabet (inAlphabet_fwdConst hi), revConst_fwdConst_eq hi, BitVec.ofNat_toNat,
    BitVec.setWidth_eq]

/-- R92 (b): a character that has a digit comes back from the digit. -/
theorem a2cResponse_of_c2aResponse {c i : Byte} (h : c2aResponse c = okWord 1#4 (i.setWidth 40) false) :
    a2cResponse i = okWord 1#4 (c.setWidth 40) false := by
  have hc : InAlphabet c := (rspStatus_c2aResponse_eq_zero_iff c).mp (by rw [h, rspStatus_okWord])
  rw [c2aResponse_of_inAlphabet hc] at h
  obtain rfl := okWord_byte_injective h
  rw [a2cResponse_of_le (Nat.lt_succ_iff.mp (revConst_lt hc)), fwdConst_revConst hc]

/-- R92 (d): different indices have different characters. -/
theorem a2cResponse_injective {i j : Byte} (hi : i.toNat ≤ 84) (hj : j.toNat ≤ 84) (h : a2cResponse i = a2cResponse j) :
    i = j := by
  rw [a2cResponse_of_le hi, a2cResponse_of_le hj] at h
  have hij := fwdConst_injective (i := ⟨i.toNat, Nat.lt_succ_of_le hi⟩) (j := ⟨j.toNat, Nat.lt_succ_of_le hj⟩)
    (okWord_byte_injective h)
  exact BitVec.eq_of_toNat_eq (Fin.mk.inj hij)

/-- R92 (c): 85 of the 256 codes are characters of the alphabet. -/
theorem inAlphabet_count : ((List.range 256).filter fun n => InAlphabet (BitVec.ofNat 8 n)).length = 85 := by
  decide +kernel

/-- R92 (c): the other 171 codes are none. -/
theorem not_inAlphabet_count : ((List.range 256).filter fun n => ¬InAlphabet (BitVec.ofNat 8 n)).length = 171 := by
  have hsum := List.length_eq_length_filter_add (l := List.range 256) fun n => InAlphabet (BitVec.ofNat 8 n)
  simp only [inAlphabet_count, List.length_range, ← decide_not] at hsum
  omega

/-- Settles O19: (a) and (b) by the two tables being inverse, (c) and (d) by counting the alphabet. -/
theorem lookupsAreInverseCommands : Obligations.LookupsAreInverseCommands := by
  simp only [Obligations.LookupsAreInverseCommands, answer_a2c, answer_c2a, beq_eq_decide,
    rspStatus_c2aResponse_eq_zero_iff, rspStatus_c2aResponse_eq_one_iff]
  exact ⟨fun i hi => ⟨fwdConst i.toNat, a2cResponse_of_le hi, c2aResponse_fwdConst hi⟩,
    fun _ _ => a2cResponse_of_c2aResponse, inAlphabet_count, not_inAlphabet_count,
    rspStatus_a2cResponse_eq_zero_iff, fun _ _ => a2cResponse_injective⟩

end Sys2Proof.Machine
end

section
/-! PROOFS. The statements of 41_encoder.md: the digits of a value, what ENCW and ENCB answer, the laws of ENCB, and the
round trip of one block with 42_decoder.md R126. -/

namespace Sys2Proof.Machine

/-! ## The digit function (R101, R103) -/

theorem toNat_digitReg (v i : Nat) : (BitVec.ofNat 7 (digitAt v i)).toNat = digitAt v i := digit_toNat _

theorem laneGet_digitsOf (v : Nat) (i : Fin 5) : (laneGet (digitsOf v) i).toNat = digitAt v i.val := by
  fin_cases i <;> exact toNat_digitReg v _

/-- Settles O21: the digits that the iteration leaves are the closed form's. -/
theorem encodeIterationGivesTheDigits : Obligations.EncodeIterationGivesTheDigits := fun s v => by
  rw [encDigits_eq]
  exact ⟨laneGet_digitsOf v.toNat, rfl⟩

/-- R103 (d): the first digit of a value below 2^32. -/
theorem digitAt_zero_le {v : Nat} (h : v < 2 ^ 32) : digitAt v 0 ≤ 82 := by
  simp only [digitAt, Nat.reduceSub, Nat.reducePow]
  omega

/-- R103 (a) on the digit registers. -/
theorem exactDigits_digitsOf (v : Value) : exactDigits (digitsOf v.toNat) = v.toNat := by
  simp only [exactDigits, digitsOf, toNat_digitReg]
  exact (digits_value v).symm

/-- R103 (e): different values have different digits. -/
theorem digitsOf_injective {v v' : Value} (h : digitsOf v.toNat = digitsOf v'.toNat) : v = v' := by
  apply BitVec.eq_of_toNat_eq
  rw [← exactDigits_digitsOf v, h, exactDigits_digitsOf v']

/-- Settles O22: the digits are the value in base 85, which gives their ranges and that they tell the value. -/
theorem encodeDigitRanges : Obligations.EncodeDigitRanges := by
  simp only [Obligations.EncodeDigitRanges, encDigits_eq, laneGet_digitsOf]
  exact ⟨fun _ v =>
      ⟨digits_value v, trivial, fun _ => Nat.le_of_lt_succ (digitAt_lt ..), digitAt_zero_le v.isLt⟩,
    fun _ _ _ _ => digitsOf_injective, fun _ => by decide⟩

/-! ## The answers of ENCW and ENCB (R105, R106) -/

/-- What an instruction answers from reset is the answer to its word. -/
theorem answer_encode_of_answered {i : Instr} {w : ResponseWord}
    (h : ∃ t, exec i State.reset = .next t ∧ Answered t w) : answer (encode i) = w := by
  obtain ⟨t, ht, hw, -⟩ := h
  simp only [answer, decodeWord_encode, ht, hw]

theorem toNat_digitByte (v i : Nat) : (BitVec.ofNat 8 (digitAt v i)).toNat = digitAt v i := by
  have := digitAt_lt v i
  rw [BitVec.toNat_ofNat]
  omega

/-- A digit register goes to its lane without change (R66). -/
theorem digitLane_digitReg (v i : Nat) : digitLane (BitVec.ofNat 7 (digitAt v i)) = BitVec.ofNat 8 (digitAt v i) := by
  apply BitVec.eq_of_toNat_eq
  rw [digitLane, BitVec.toNat_setWidth, toNat_digitReg, BitVec.toNat_ofNat]

/-- The five digits of a value as bytes, the most significant first. -/
def digitBytes (v : Nat) : List Byte := (List.range 5).map fun i => BitVec.ofNat 8 (digitAt v i)

theorem dataOfDigits_digitsOf (v : Nat) : dataOfDigits (digitsOf v) = dataOfChars (digitBytes v) := by
  simp only [dataOfDigits, digitsOf, digitLane_digitReg]
  rfl

theorem exec_encw_answered (len : BitVec 4) (junk : Byte) (v : Value) (s : State) :
    ∃ t, exec (.encw len junk v) s = .next t ∧
      Answered t (okWord 5#4 (dataOfChars (digitBytes v.toNat)) false) := by
  rw [exec, execEncw, encDigits_eq, dataOfDigits_digitsOf]
  exact ⟨_, rfl, rfl, rfl, rfl⟩

@[simp] theorem answer_encw (len : BitVec 4) (junk : Byte) (v : Value) :
    answer (encode (.encw len junk v)) = okWord 5#4 (dataOfChars (digitBytes v.toNat)) false :=
  answer_encode_of_answered (exec_encw_answered len junk v _)

/-- Settles O23: the digit registers go to the lanes of the response. -/
theorem encwAnswersTheDigits : Obligations.EncwAnswersTheDigits := fun len junk v =>
  ⟨decodeWord_encode (.encw len junk v), exec_encw_answered len junk v⟩

theorem leadingChars_take (v : Nat) {m n : Nat} (h : m ≤ n) : (leadingChars v n).take m = leadingChars v m := by
  rw [leadingChars, ← List.map_take, List.take_range, Nat.min_eq_left h, leadingChars]

/-- The characters of the first digit registers are the value's leading characters. -/
theorem map_fwdConst_digitsOf (v : Nat) {n : Nat} (h : n ≤ 5) :
    ((laneList (digitsOf v)).take n).map (fun d => fwdConst d.toNat) = leadingChars v n := by
  have hfull : (laneList (digitsOf v)).map (fun d => fwdConst d.toNat) = leadingChars v 5 := by
    simp only [laneList, digitsOf, List.map_cons, List.map_nil, toNat_digitReg]
    rfl
  rw [List.map_take, hfull, leadingChars_take v h]

/-- The response R106 gives a length and the four byte lanes. -/
def encbResponse (len : BitVec 4) (bs : List Byte) : ResponseWord :=
  if 1 ≤ len.toNat ∧ len.toNat ≤ 4 then
    okWord (len + 1#4) (dataOfChars (leadingChars (rawValue (bs.take len.toNat)) (len.toNat + 1))) false
  else errorWord .contractViolation 0#4 0#8

theorem exec_encb_answered {s : State} (hm : s.mem.constant = true) (len : BitVec 4) (junk b0 b1 b2 b3 : Byte) :
    ∃ t, exec (.encb len junk b0 b1 b2 b3) s = .next t ∧ Answered t (encbResponse len [b0, b1, b2, b3]) := by
  rw [exec, execEncb, encbResponse]
  by_cases h : 1 ≤ len.toNat ∧ len.toNat ≤ 4
  · have hv : (bigEndian ([b0, b1, b2, b3].take len.toNat)).toNat = rawValue ([b0, b1, b2, b3].take len.toNat) :=
      bigEndian_toNat _ (List.length_take_le' ..)
    rw [if_neg (by omega), if_pos h]
    simp only [encDigits_eq, forwardAll_constant hm _ (digitsOf_lt _ _), hv,
      map_fwdConst_digitsOf _ (Nat.succ_le_succ h.2)]
    exact ⟨_, rfl, rfl, rfl, rfl⟩
  · rw [if_pos (by omega), if_neg h]
    exact ⟨_, rfl, rfl, rfl, rfl⟩

/-- Settles O24: the length is checked first; then the lookups of the first digits give the leading characters. -/
theorem encbAnswersTheCharacters : Obligations.EncbAnswersTheCharacters := fun len junk b0 b1 b2 b3 =>
  ⟨decodeWord_encode (.encb len junk b0 b1 b2 b3), fun _ hm => exec_encb_answered hm len junk b0 b1 b2 b3⟩

/-! ## The laws of ENCB (R107, R108, R110) -/

@[simp] theorem answer_encb (len : BitVec 4) (junk b0 b1 b2 b3 : Byte) :
    answer (encode (.encb len junk b0 b1 b2 b3)) = encbResponse len [b0, b1, b2, b3] :=
  answer_encode_of_answered (exec_encb_answered rfl len junk b0 b1 b2 b3)

theorem toNat_lenField {n : Nat} (h : n ≤ 5) : (BitVec.ofNat 4 n).toNat = n := by
  rw [BitVec.toNat_ofNat]
  omega

theorem toNat_len_succ {len : BitVec 4} (h : len.toNat ≤ 4) : (len + 1#4).toNat = len.toNat + 1 := by
  rw [BitVec.toNat_add, BitVec.toNat_ofNat]
  omega

section
variable {len : BitVec 4} {bs : List Byte}

theorem encbResponse_ok (h : 1 ≤ len.toNat ∧ len.toNat ≤ 4) :
    encbResponse len bs =
      okWord (len + 1#4) (dataOfChars (leadingChars (rawValue (bs.take len.toNat)) (len.toNat + 1))) false := if_pos h

theorem rspChars_encbResponse (h : 1 ≤ len.toNat ∧ len.toNat ≤ 4) :
    rspChars (encbResponse len bs) = leadingChars (rawValue (bs.take len.toNat)) (len.toNat + 1) := by
  rw [encbResponse_ok h]
  exact rspChars_okWord (by rw [leadingChars_length]; omega) (by rw [leadingChars_length, toNat_len_succ h.2]) false

theorem encbResponse_status_ok_iff : rspStatus (encbResponse len bs) = 0#4 ↔ 1 ≤ len.toNat ∧ len.toNat ≤ 4 := by
  rw [encbResponse]
  split <;> simp [*, statusCode]

theorem rspLen_encbResponse (h : 1 ≤ len.toNat ∧ len.toNat ≤ 4) :
    (rspLen (encbResponse len bs)).toNat = len.toNat + 1 := by
  rw [encbResponse_ok h, rspLen_okWord, toNat_len_succ h.2]

end

/-- Settles O25: `ENCB` answers `OK` for the lengths 1 to 4 alone, each with one character more. -/
theorem encbLengthLaw : Obligations.EncbLengthLaw := by
  intro len junk b0 b1 b2 b3
  dsimp only
  rw [answer_encb, encbResponse_status_ok_iff]
  refine ⟨fun h => ⟨h, rspLen_encbResponse h, ?_⟩, fun h => ?_⟩
  · rw [rspChars_encbResponse h, leadingChars_length]
  · rw [rspLen_encbResponse h]
    omega

/-- The word of a block of at most four bytes is the `ENCB` of its bytes and zero bytes. -/
theorem encbWord_eq_encode (bs : List Byte) :
    encbWord bs =
      encode (.encb (BitVec.ofNat 4 bs.length) 0#8 (bs.getD 0 0#8) (bs.getD 1 0#8) (bs.getD 2 0#8)
        (bs.getD 3 0#8)) :=
  rfl

/-- R106 on a block: its characters are the leading characters of its value. -/
theorem encodeBlock_eq {bs : List Byte} (h1 : 1 ≤ bs.length) (h4 : bs.length ≤ 4) :
    encodeBlock bs = leadingChars (rawValue bs) (bs.length + 1) := by
  have hl := toNat_lenField (n := bs.length) (by omega)
  rw [encodeBlock, encbWord_eq_encode, answer_encb, rspChars_encbResponse (by omega), hl, getD_take_four bs h4]

theorem rawValue_append_zeros (bs : List Byte) (k : Nat) : rawValue (bs ++ List.replicate k 0#8) = rawValue bs := by
  have e (i : Nat) : (bs ++ List.replicate k 0#8).getD i 0#8 = bs.getD i 0#8 := by
    rcases Nat.lt_or_ge i bs.length with hi | hi
    · exact List.getD_append _ _ _ _ hi
    · rw [List.getD_append_right _ _ _ _ hi, List.getD_eq_default _ _ hi, List.getD_eq_getElem?_getD,
        List.getElem?_getD_replicate_default_eq]
  simp only [rawValue, e]

/-- Settles O26: zero bytes at the end leave the value, and a shorter block takes fewer of its characters. -/
theorem encbPrefixLaw : Obligations.EncbPrefixLaw := by
  intro bs h1 h3
  have hl : (bs ++ List.replicate (4 - bs.length) 0#8).length = 4 := by
    rw [List.length_append, List.length_replicate]
    omega
  rw [encodeBlock_eq h1 (by omega), encodeBlock_eq (by omega) hl.le, hl, rawValue_append_zeros,
    leadingChars_take _ (by omega)]

theorem rawValue_full (b0 b1 b2 b3 : Byte) : rawValue [b0, b1, b2, b3] = (b0 ++ b1 ++ b2 ++ b3 : Value).toNat := by
  simp only [toNat_append_add, rawValue, List.getD_cons_zero, List.getD_cons_succ]
  omega

theorem digitBytes_getD (v : Nat) {i : Nat} (h : i < 5) : (digitBytes v).getD i 0#8 = BitVec.ofNat 8 (digitAt v i) := by
  simp [digitBytes, h]

theorem leadingChars_getD (v : Nat) {i n : Nat} (h : i < n) :
    (leadingChars v n).getD i 0#8 = fwdConst (digitAt v i) := by
  simp [leadingChars, h]

/-- Settles O27: lane by lane, both sides are the character of the same digit. -/
theorem encbIsEncwThenLookups : Obligations.EncbIsEncwThenLookups := by
  intro b0 b1 b2 b3 i
  have hd := digitAt_lt (rawValue [b0, b1, b2, b3]) i.val
  rw [answer_encw, rspData_okWord, charLanes_dataOfChars, laneGet_lanesOf, ← rawValue_full,
    digitBytes_getD _ i.isLt, answer_a2c, a2cResponse_of_le (by rw [toNat_digitByte]; omega), toNat_digitByte,
    encodeBlock_eq (by simp) (by simp), leadingChars_getD _ (by exact i.isLt)]

/-! ## The round trip of one block (R109, R126) -/

theorem len_pred_eq_ofNat {len : BitVec 4} (h : 1 ≤ len.toNat) : len - 1#4 = BitVec.ofNat 4 (len.toNat - 1) := by
  apply BitVec.eq_of_toNat_eq
  rw [BitVec.toNat_sub, BitVec.toNat_ofNat, BitVec.toNat_ofNat]
  omega

/-- The response R124 gives a block of characters of the alphabet. -/
def decbOkResponse (cs : List Byte) : ResponseWord :=
  okWord (BitVec.ofNat 4 (cs.length - 1))
    (dataOfBytes (leadingBytes (exactValue (blockDigits cs) % 2 ^ 32) (cs.length - 1)))
    (decide (2 ^ 32 ≤ exactValue (blockDigits cs)))

theorem exec_decb_answered_ok {s : State} (hm : s.mem.constant = true) {len : BitVec 4} {c : Five Byte}
    (h2 : 2 ≤ len.toNat) (h5 : len.toNat ≤ 5) (hc : ∀ x ∈ (laneList c).take len.toNat, InAlphabet x) :
    ∃ t, exec (.decb len c) s = .next t ∧ Answered t (decbOkResponse ((laneList c).take len.toNat)) := by
  have hl : ((laneList c).take len.toNat).length = len.toNat := by
    rw [List.length_take, laneList_length, Nat.min_eq_left h5]
  have hd : ∀ x ∈ ((laneList c).take len.toNat).map revConst, x.toNat ≤ 84 := by
    intro x hx
    obtain ⟨y, hy, rfl⟩ := List.mem_map.mp hx
    exact Nat.le_of_lt_succ (revConst_lt (hc y hy))
  obtain ⟨he, hr⟩ := paddedDigits_exact _ hd
  rw [exec, execDecb, if_neg (by omega), reverseAll_ok hm _ _ hc]
  simp only [decDigits_eq _ _ hr, he, valueBytes_take _ (by omega : len.toNat - 1 ≤ 4), BitVec.toNat_ofNat]
  refine ⟨_, rfl, ?_, rfl, rfl⟩
  rw [decbOkResponse, hl, ← len_pred_eq_ofNat (by omega)]
  rfl

/-- The word of a block of at most five characters is the `DECB` of its characters and zero lanes. -/
theorem decbWord_eq_encode (cs : List Byte) :
    decbWord cs = encode (.decb (BitVec.ofNat 4 cs.length) (lanesOf 0#8 cs)) := rfl

theorem answer_decbWord_ok {cs : List Byte} (h2 : 2 ≤ cs.length) (h5 : cs.length ≤ 5)
    (hc : ∀ x ∈ cs, InAlphabet x) : answer (decbWord cs) = decbOkResponse cs := by
  have hl := toNat_lenField (n := cs.length) (by omega)
  have hx := exec_decb_answered_ok (s := State.reset) rfl (len := BitVec.ofNat 4 cs.length) (c := lanesOf 0#8 cs)
  rw [hl, lanesOf_take cs h5] at hx
  rw [decbWord_eq_encode]
  exact answer_encode_of_answered (hx h2 h5 hc)

/-- R126: replacing the low digits of a value that is a multiple of `256^k` by digits 84 keeps it below 2^32 and keeps
what stands above `256^k`, since `85^k ≤ 256^k`. -/
theorem padded_value_bounds {v k : Nat} (hv : v < 2 ^ 32) (hk : k ≤ 3) (hm : v % 256 ^ k = 0) :
    v - v % 85 ^ k + (85 ^ k - 1) < 2 ^ 32 ∧ (v - v % 85 ^ k + (85 ^ k - 1)) / 256 ^ k = v / 256 ^ k := by
  rcases (by omega : k = 0 ∨ k = 1 ∨ k = 2 ∨ k = 3) with rfl | rfl | rfl | rfl <;>
    simp only [Nat.reducePow] at * <;> omega

/-- R126: the padding digits change the value of an encoded block only below its bytes. -/
theorem answer_decbWord_encodeBlock {bs : List Byte} (h1 : 1 ≤ bs.length) (h4 : bs.length ≤ 4) :
    answer (decbWord (encodeBlock bs)) = okWord (BitVec.ofNat 4 bs.length) (dataOfBytes bs) false := by
  have hl := leadingChars_length (rawValue bs) (bs.length + 1)
  have he := exactValue_blockDigits (n := bs.length + 1) (rawValue_lt bs) (by omega) (by omega)
  obtain ⟨hlt, hdiv⟩ := padded_value_bounds (k := 4 - bs.length) (rawValue_lt bs) (by omega) (rawValue_mod bs h1 h4)
  rw [Nat.add_sub_add_right 4 1 bs.length] at he
  rw [← he] at hlt hdiv
  rw [encodeBlock_eq h1 h4, answer_decbWord_ok (by omega) (by omega) (leadingChars_inAlphabet _ _), decbOkResponse, hl,
    Nat.add_sub_cancel, Nat.mod_eq_of_lt hlt, leadingBytes_congr h4 hdiv, leadingBytes_rawValue bs h4,
    decide_eq_false (Nat.not_le.mpr hlt)]

/-- Settles O34: the response holds the block's own bytes. -/
theorem blockRoundTrip : Obligations.BlockRoundTrip := by
  intro bs h1 h4
  have hl := toNat_lenField (n := bs.length) (by omega)
  dsimp only
  rw [answer_decbWord_encodeBlock h1 h4]
  refine ⟨?_, rspStatus_okWord .., ?_, rspBytes_okWord h4 hl false, rspOvf_okWord ..⟩
  · rw [encodeBlock_eq h1 h4]
    exact leadingChars_inAlphabet _ _
  · rw [rspLen_okWord, hl]

/-! ## Zero (R104) -/

/-- Settles O28: zero takes the path of any block, `z` is the digit 61, and `zzzzz` is the value of five such digits. -/
theorem zeroHasNoShortcut : Obligations.ZeroHasNoShortcut := by
  refine ⟨?_, ?_, ?_⟩
  · rw [encbWord_eq_encode, answer_encb]
    decide +kernel
  · rw [answer_c2a, c2aResponse_of_inAlphabet (by decide +kernel)]
    decide +kernel
  · rw [answer_decbWord_ok (by decide) (by decide) (by decide +kernel)]
    decide +kernel

end Sys2Proof.Machine
end

section
/-! PROOFS. The statements of 42_decoder.md: the value function and its overflow, what DECW and DECB answer, the laws of
DECB, and the two bare units as a pair. -/

namespace Sys2Proof.Machine

/-! ## The value function (R120, R122) -/

theorem exactValue_eq_laneGet (x : Five Byte) :
    exactValue x =
      (laneGet x 0).toNat * 85 ^ 4 + (laneGet x 1).toNat * 85 ^ 3 + (laneGet x 2).toNat * 85 ^ 2 +
        (laneGet x 3).toNat * 85 + (laneGet x 4).toNat := rfl

section
variable {x : Five Byte} (hx : ∀ i, (laneGet x i).toNat ≤ 84)
include hx

theorem lanes_le : x.l0.toNat ≤ 84 ∧ x.l1.toNat ≤ 84 ∧ x.l2.toNat ≤ 84 ∧ x.l3.toNat ≤ 84 ∧ x.l4.toNat ≤ 84 :=
  ⟨hx 0, hx 1, hx 2, hx 3, hx 4⟩

theorem mem_laneList_le : ∀ y ∈ laneList x, y.toNat ≤ 84 := by
  intro y hy
  obtain ⟨i, rfl⟩ := mem_laneList.mp hy
  exact hx i

/-- R120 on five lanes that hold digits. -/
theorem decDigits_lanes (s : State) :
    s.decDigits (paddedDigits (laneList x)) =
      ({ s with num := BitVec.ofNat 32 (exactValue x), dg := paddedDigits (laneList x), cnt := 5#3 },
        decide (2 ^ 32 ≤ exactValue x)) := by
  obtain ⟨he, hd⟩ := paddedDigits_exact _ (mem_laneList_le hx)
  rw [decDigits_eq s _ hd, he, laneList_lanesOf_full]

/-- A digit goes to its 7-bit register without change. -/
theorem laneGet_paddedDigits (i : Fin 5) : (laneGet (paddedDigits (laneList x)) i).toNat = (laneGet x i).toNat := by
  have hi : laneGet (paddedDigits (laneList x)) i = (laneGet x i).setWidth 7 := by
    fin_cases i <;> rfl
  rw [hi, BitVec.toNat_setWidth]
  exact Nat.mod_eq_of_lt (Nat.lt_of_le_of_lt (hx i) (by decide))

theorem laneGet_paddedDigits_le (i : Fin 5) : (laneGet (paddedDigits (laneList x)) i).toNat ≤ 84 := by
  rw [laneGet_paddedDigits hx]
  exact hx i

/-- R122 (b): the bound on the exact value. -/
theorem exactValue_le : exactValue x ≤ 85 ^ 5 - 1 := by
  have := lanes_le hx
  simp only [exactValue]
  omega

/-- R122 (c): the digits of 2^32 - 1 are `(82, 23, 54, 12, 0)`, and digit vectors are ordered as their values. -/
theorem overflow_iff_lex :
    2 ^ 32 ≤ exactValue x ↔ List.Lex (· < ·) [82, 23, 54, 12, 0] ((laneList x).map BitVec.toNat) := by
  have := lanes_le hx
  simp only [laneList, List.map_cons, List.map_nil, List.cons_lex_cons_iff, List.not_lex_nil, and_false, or_false,
    exactValue]
  omega

end

/-- R122 (c) on the first digit alone: `83 * 85^4` is above 2^32. -/
theorem overflow_of_first_digit {x : Five Byte} (h : 83 ≤ x.l0.toNat) : 2 ^ 32 ≤ exactValue x := by
  simp only [exactValue]
  omega

/-- Settles O29: the iteration accumulates the closed form. -/
theorem decodeIterationGivesTheValue : Obligations.DecodeIterationGivesTheValue := fun s x hx => by
  rw [decDigits_lanes hx]
  exact ⟨rfl, rfl, rfl⟩

/-- The state and `ovf` after the first `k` steps of the iteration, `k` at most 4. -/
def decSteps (s : State) (d : Five Digit) (k : Nat) : State × Bool :=
  (([0, 1, 2, 3] : List (Fin 5)).take k).foldl State.decStep ({ s with dg := d, num := 0#32, cnt := 0#3 }, false)

theorem decSteps_succ (s : State) (d : Five Digit) {k : Nat} (hk : k < 4) :
    decSteps s d (k + 1) = State.decStep (decSteps s d k) ⟨k, by omega⟩ := by
  match k, hk with
  | 0, _ | 1, _ | 2, _ | 3, _ => rfl

theorem decDigits_eq_decStep (s : State) (d : Five Digit) : s.decDigits d = State.decStep (decSteps s d 4) 4 := rfl

/-- The exact value of some digits, the most significant first. -/
def digitsValue (ds : List Digit) : Nat := ds.foldl (fun v d => v * 85 + d.toNat) 0

theorem digitsValue_take_succ (d : Five Digit) {k : Nat} (hk : k < 5) :
    digitsValue ((laneList d).take (k + 1)) = digitsValue ((laneList d).take k) * 85 + (laneGet d ⟨k, hk⟩).toNat := by
  rw [laneList_take_succ d hk, digitsValue, List.foldl_append]
  rfl

section
variable {d : Five Digit} (hd : ∀ i, (laneGet d i).toNat ≤ 84)
include hd

theorem digitsValue_take_lt : ∀ {k : Nat}, k ≤ 5 → digitsValue ((laneList d).take k) < 85 ^ k
  | 0, _ => Nat.one_pos
  | k + 1, hk => by
    have ih := digitsValue_take_lt (Nat.le_of_succ_le hk)
    have := hd ⟨k, hk⟩
    rw [digitsValue_take_succ d hk, Nat.pow_succ]
    omega

/-- R122 (a): below 85^4 an accumulator is exact, so four steps do not overflow. -/
theorem decSteps_exact (s : State) : ∀ {k : Nat}, k ≤ 4 →
    (decSteps s d k).1.dg = d ∧ (decSteps s d k).1.num = BitVec.ofNat 32 (digitsValue ((laneList d).take k)) ∧
      (decSteps s d k).2 = false
  | 0, _ => ⟨rfl, rfl, rfl⟩
  | k + 1, hk => by
    obtain ⟨hdg, hnum, hovf⟩ := decSteps_exact s (Nat.le_of_succ_le hk)
    have hnext := digitsValue_take_lt hd (Nat.le_succ_of_le hk)
    have hpow : 85 ^ (k + 1) ≤ 85 ^ 4 := Nat.pow_le_pow_right (by decide) hk
    rw [digitsValue_take_succ d (by omega)] at hnext ⊢
    rw [decSteps_succ s d hk,
      decStep_exact (decSteps s d k) ⟨k, by omega⟩ _ hnum (by omega) (by rw [hdg]; omega)]
    exact ⟨hdg, by rw [hdg], hovf⟩

theorem decSteps_toNat (s : State) {k : Nat} (hk : k ≤ 4) :
    (decSteps s d k).1.num.toNat = digitsValue ((laneList d).take k) := by
  obtain ⟨-, hnum, -⟩ := decSteps_exact hd s hk
  have hlt := digitsValue_take_lt hd (Nat.le_succ_of_le hk)
  have hpow : 85 ^ k ≤ 85 ^ 4 := Nat.pow_le_pow_right (by decide) hk
  rw [hnum, BitVec.toNat_ofNat]
  omega

theorem decSteps_bound (s : State) {k : Nat} (hk : k ≤ 4) :
    (decSteps s d k).1.num.toNat ≤ 85 ^ 4 - 1 ∧ (decSteps s d k).2 = false := by
  obtain ⟨-, -, hovf⟩ := decSteps_exact hd s hk
  have hlt := digitsValue_take_lt hd (Nat.le_succ_of_le hk)
  have hpow : 85 ^ k ≤ 85 ^ 4 := Nat.pow_le_pow_right (by decide) hk
  rw [decSteps_toNat hd s hk]
  exact ⟨by omega, hovf⟩

end

theorem digitsValue_four (d : Five Digit) :
    digitsValue ((laneList d).take 4) =
      (laneGet d 0).toNat * 85 ^ 3 + (laneGet d 1).toNat * 85 ^ 2 + (laneGet d 2).toNat * 85 + (laneGet d 3).toNat := by
  simp only [digitsValue, laneList, laneGet, List.take_succ_cons, List.take_zero, List.foldl_cons, List.foldl_nil]
  omega

/-- R122 (a): the accumulator after four steps. -/
theorem decSteps_four {x : Five Byte} (hx : ∀ i, (laneGet x i).toNat ≤ 84) (s : State) :
    (decSteps s (paddedDigits (laneList x)) 4).1.num.toNat =
      x.l0.toNat * 85 ^ 3 + x.l1.toNat * 85 ^ 2 + x.l2.toNat * 85 + x.l3.toNat := by
  have hl := laneGet_paddedDigits hx
  rw [decSteps_toNat (laneGet_paddedDigits_le hx) s le_rfl, digitsValue_four, hl, hl, hl, hl]
  rfl

/-! ## The answer of DECW (R123) -/

/-- The response R123 gives five digits. -/
def decwResponse (x : Five Byte) : ResponseWord :=
  okWord 4#4 (BitVec.ofNat 40 (exactValue x % 2 ^ 32)) (decide (2 ^ 32 ≤ exactValue x))

theorem exec_decw_digits {x : Five Byte} (hx : ∀ i, (laneGet x i).toNat ≤ 84) (len : BitVec 4) (s : State) :
    ∃ t, exec (.decw len x) s = .next t ∧ Answered t (decwResponse x) := by
  rw [exec, execDecw, firstAboveDigit_none _ _ (mem_laneList_le hx)]
  simp only [decDigits_lanes hx]
  refine ⟨_, rfl, ?_, rfl, rfl⟩
  rw [decwResponse, ← BitVec.toNat_ofNat, BitVec.ofNat_toNat]
  rfl

/-- The lane check finds the lowest lane above 84. -/
theorem firstAboveDigit_laneList {x : Five Byte} {i : Fin 5} (hi : 84 < (laneGet x i).toNat)
    (hlow : ∀ j, j < i → (laneGet x j).toNat ≤ 84) : firstAboveDigit 0 (laneList x) = some (i.val, laneGet x i) := by
  obtain ⟨rest, hr⟩ := laneList_take_split x i i.isLt
  rw [List.take_of_length_le (laneList_length x).le] at hr
  rw [hr, firstAboveDigit_some _ _ hi _ _ (forall_mem_take hlow), laneList_take_length, Nat.zero_add]

theorem exec_decw_badLane {x : Five Byte} {i : Fin 5} (hi : 84 < (laneGet x i).toNat)
    (hlow : ∀ j, j < i → (laneGet x j).toNat ≤ 84) (len : BitVec 4) (s : State) :
    ∃ t, exec (.decw len x) s = .next t ∧
      Answered t (errorWord .contractViolation (BitVec.ofNat 4 i.val) (laneGet x i)) := by
  rw [exec, execDecw, firstAboveDigit_laneList hi hlow]
  exact ⟨_, rfl, rfl, rfl, rfl⟩

/-- Settles O30: the lane check comes before the arithmetic. -/
theorem decwAnswersTheValue : Obligations.DecwAnswersTheValue := fun len x =>
  ⟨decodeWord_encode (.decw len x), fun s =>
    ⟨fun hx => exec_decw_digits hx len s, fun _ hi hlow => exec_decw_badLane hi hlow len s⟩⟩

theorem answer_decw {x : Five Byte} (hx : ∀ i, (laneGet x i).toNat ≤ 84) (len : BitVec 4) :
    answer (encode (.decw len x)) = decwResponse x :=
  answer_encode_of_answered (exec_decw_digits hx len _)

/-- Settles O31: an exact accumulator of four digits, one last step, and the order of digit vectors. -/
theorem decodeOverflowFacts : Obligations.DecodeOverflowFacts := by
  refine ⟨fun s x hx => ?_, fun s => ?_, ?_, ?_, ?_⟩
  · have hd := laneGet_paddedDigits_le hx
    have hE := exactValue_le hx
    refine ⟨fun k hk => decSteps_bound hd s hk, decSteps_four hx s,
      decDigits_eq_decStep s _, hE, ?_⟩
    rw [decDigits_lanes hx]
    simp only [BitVec.toNat_ofNat, decide_eq_true_eq]
    exact ⟨by split <;> omega, overflow_iff_lex hx, overflow_of_first_digit⟩
  · dsimp only
    rw [decDigits_eq s _ (by decide), decDigits_eq s _ (by decide)]
    dsimp only
    decide
  · exact (answer_decw (x := ⟨84#8, 84#8, 84#8, 84#8, 84#8⟩) (by decide) 0#4).trans (by decide +kernel)
  · exact (answer_decw (x := ⟨82#8, 23#8, 54#8, 12#8, 1#8⟩) (by decide) 0#4).trans (by decide +kernel)
  · exact (answer_decw (x := ⟨82#8, 23#8, 54#8, 12#8, 0#8⟩) (by decide) 0#4).trans (by decide +kernel)

/-! ## The answer of DECB (R124) -/

theorem exec_decb_badLength {len : BitVec 4} (h : len.toNat ≤ 1 ∨ 6 ≤ len.toNat) (c : Five Byte) (s : State) :
    ∃ t, exec (.decb len c) s = .next t ∧ Answered t (errorWord .malformedLength 0#4 0#8) := by
  rw [exec, execDecb, if_pos h]
  exact ⟨_, rfl, rfl, rfl, rfl⟩

/-- The reverse scan finds the lowest character that is not in the alphabet. -/
theorem reverseAll_laneList {m : Memory} (hm : m.constant = true) {c : Five Byte} {i : Fin 5} {n : Nat}
    (hin : i.val < n) (hi : ¬InAlphabet (laneGet c i)) (hlow : ∀ j, j < i → InAlphabet (laneGet c j)) :
    m.reverseAll 0 ((laneList c).take n) = .error (i.val, laneGet c i) := by
  obtain ⟨rest, hr⟩ := laneList_take_split c i hin
  rw [hr, reverseAll_error hm _ _ hi _ _ (forall_mem_take hlow), laneList_take_length, Nat.zero_add]

theorem exec_decb_badCharacter {s : State} (hm : s.mem.constant = true) {len : BitVec 4} {c : Five Byte} {i : Fin 5}
    (h : 2 ≤ len.toNat ∧ len.toNat ≤ 5) (hin : i.val < len.toNat) (hi : ¬InAlphabet (laneGet c i))
    (hlow : ∀ j, j < i → InAlphabet (laneGet c j)) :
    ∃ t, exec (.decb len c) s = .next t ∧
      Answered t (errorWord .invalidCharacter (BitVec.ofNat 4 i.val) (laneGet c i)) := by
  rw [exec, execDecb, if_neg (by omega), reverseAll_laneList hm hin hi hlow]
  exact ⟨_, rfl, rfl, rfl, rfl⟩

theorem decbOkResponse_take {len : BitVec 4} (h : 1 ≤ len.toNat ∧ len.toNat ≤ 5) (c : Five Byte) :
    decbOkResponse ((laneList c).take len.toNat) =
      okWord (len - 1#4)
        (dataOfBytes (leadingBytes (exactValue (blockDigits ((laneList c).take len.toNat)) % 2 ^ 32) (len.toNat - 1)))
        (decide (2 ^ 32 ≤ exactValue (blockDigits ((laneList c).take len.toNat)))) := by
  rw [decbOkResponse, List.length_take, laneList_length, Nat.min_eq_left h.2, len_pred_eq_ofNat h.1]

/-- Settles O32: length, then characters, then the value. -/
theorem decbAnswersTheBytes : Obligations.DecbAnswersTheBytes := by
  refine fun len c => ⟨decodeWord_encode (.decb len c), fun s hm => ⟨fun h => exec_decb_badLength h c s, fun h =>
    ⟨fun i hin hi hlow => exec_decb_badCharacter hm h hin hi hlow, fun hc => ?_⟩⟩⟩
  dsimp only
  rw [← decbOkResponse_take ⟨by omega, h.2⟩]
  exact exec_decb_answered_ok hm h.1 h.2 (forall_mem_take hc)

/-! ## The laws of DECB (R125, R127, R128) -/

theorem rspBytes_answer_decbWord {cs : List Byte} (h2 : 2 ≤ cs.length) (h5 : cs.length ≤ 5)
    (hc : ∀ c ∈ cs, InAlphabet c) :
    rspBytes (answer (decbWord cs)) = leadingBytes (exactValue (blockDigits cs) % 2 ^ 32) (cs.length - 1) := by
  rw [answer_decbWord_ok h2 h5 hc]
  exact rspBytes_okWord (by rw [leadingBytes_length]; omega)
    (by rw [leadingBytes_length, toNat_lenField (by omega)]) _

/-- Encoding what was decoded gives back exactly the blocks that `ENCB` produces. -/
theorem encodeBlock_rspBytes_iff {cs : List Byte} (h2 : 2 ≤ cs.length) (h5 : cs.length ≤ 5)
    (hl : (rspBytes (answer (decbWord cs))).length = cs.length - 1) :
    encodeBlock (rspBytes (answer (decbWord cs))) = cs ↔
      ∃ bs : List Byte, 1 ≤ bs.length ∧ bs.length ≤ 4 ∧ encodeBlock bs = cs := by
  constructor
  · exact fun h => ⟨_, by omega, by omega, h⟩
  · rintro ⟨bs, h1, h4, rfl⟩
    rw [answer_decbWord_encodeBlock h1 h4, rspBytes_okWord h4 (toNat_lenField (by omega))]

/-- Settles O33: the answer never depends on how a block was made, and two blocks of the same byte show that it may not
come back. -/
theorem decbLengthLawWithoutCanonicalForm : Obligations.DecbLengthLawWithoutCanonicalForm := by
  refine ⟨fun cs h2 h5 hc => ?_, ?_, ?_, ?_⟩
  · have ha := answer_decbWord_ok h2 h5 hc
    have hl : (rspBytes (answer (decbWord cs))).length = cs.length - 1 := by
      rw [rspBytes_answer_decbWord h2 h5 hc, leadingBytes_length]
    refine ⟨?_, ?_, hl, encodeBlock_rspBytes_iff h2 h5 hl⟩
    · rw [ha, decbOkResponse, rspStatus_okWord]
    · rw [ha, decbOkResponse, rspLen_okWord, toNat_lenField (by omega)]
  · exact (rspBytes_answer_decbWord (by decide) (by decide) (by decide +kernel)).trans (by decide +kernel)
  · exact (rspBytes_answer_decbWord (by decide) (by decide) (by decide +kernel)).trans (by decide +kernel)
  · exact (encodeBlock_eq (by decide) (by decide)).trans (by decide +kernel)

theorem laneGet_blockDigits_of_lt {cs : List Byte} {i : Fin 5} (h : i.val < cs.length) :
    laneGet (blockDigits cs) i = revConst (cs.getD i.val 0#8) := by
  rw [blockDigits, laneGet_lanesOf]
  simp [h]

theorem laneGet_blockDigits_of_ge {cs : List Byte} {i : Fin 5} (h : cs.length ≤ i.val) :
    laneGet (blockDigits cs) i = 84#8 := by
  rw [blockDigits, laneGet_lanesOf]
  simp [h]

theorem getD_inAlphabet {cs : List Byte} (hc : ∀ c ∈ cs, InAlphabet c) {i : Nat} (h : i < cs.length) :
    InAlphabet (cs.getD i 0#8) := by
  rw [List.getD_eq_getElem _ _ h]
  exact hc _ (List.getElem_mem h)

theorem laneGet_blockDigits_le {cs : List Byte} (hc : ∀ c ∈ cs, InAlphabet c) (i : Fin 5) :
    (laneGet (blockDigits cs) i).toNat ≤ 84 := by
  rcases Nat.lt_or_ge i.val cs.length with h | h
  · rw [laneGet_blockDigits_of_lt h]
    exact Nat.le_of_lt_succ (revConst_lt (getD_inAlphabet hc h))
  · rw [laneGet_blockDigits_of_ge h]
    decide

/-- A `DATA` field that holds a 32-bit value holds its bytes (R65). -/
theorem byteLanes_ofNat {v : Nat} (hv : v < 2 ^ 32) : byteLanes (BitVec.ofNat 40 v) = leadingBytes v 4 := by
  have e (k : Nat) : (BitVec.ofNat 40 v).extractLsb' k 8 = BitVec.ofNat 8 (v / 2 ^ k) := by
    apply BitVec.eq_of_toNat_eq
    rw [toNat_slice, BitVec.toNat_ofNat, BitVec.toNat_ofNat, Nat.mod_eq_of_lt (by omega : v < 2 ^ 40)]
  simp only [byteLanes, e]
  rfl

/-- A `DATA` field that holds a 32-bit value is made of its byte lanes (R65). -/
theorem dataOfBytes_byteLanes {d : Data} (hd : d.toNat < 2 ^ 32) : dataOfBytes (byteLanes d) = d := by
  have h0 : (charLanes d).l0 = 0#8 := by
    apply BitVec.eq_of_toNat_eq
    rw [charLanes, toNat_slice, Nat.div_eq_of_lt hd]
    rfl
  calc
    dataOfBytes (byteLanes d) = packChars { charLanes d with l0 := 0#8 } := rfl
    _ = packChars (charLanes d) := by rw [← h0]
    _ = d := packChars_charLanes d

theorem leadingBytes_take (v : Nat) {m n : Nat} (h : m ≤ n) : (leadingBytes v n).take m = leadingBytes v m := by
  rw [leadingBytes, ← List.map_take, List.take_range, Nat.min_eq_left h, leadingBytes]

/-- Settles O35: both sides compute the value of the same five digits. -/
theorem decbIsLookupsThenDecw : Obligations.DecbIsLookupsThenDecw := by
  intro cs h2 h5 hc
  have hv : exactValue (blockDigits cs) % 2 ^ 32 < 2 ^ 32 := Nat.mod_lt _ (by decide)
  refine ⟨blockDigits cs, fun i hi => ?_, fun i hi => laneGet_blockDigits_of_ge hi, ?_⟩
  · rw [answer_c2a, c2aResponse_of_inAlphabet (getD_inAlphabet hc hi), laneGet_blockDigits_of_lt hi]
  · dsimp only
    rw [answer_decw (laneGet_blockDigits_le hc), answer_decbWord_ok h2 h5 hc]
    refine ⟨?_, fun hl => ?_⟩
    · rw [decwResponse, rspData_okWord, rspOvf_okWord, byteLanes_ofNat hv, leadingBytes_take _ (by omega),
        decbOkResponse]
    · have hd : (BitVec.ofNat 40 (exactValue (blockDigits cs) % 2 ^ 32)).toNat < 2 ^ 32 := by
        rw [BitVec.toNat_ofNat]
        omega
      rw [decwResponse, decbOkResponse, hl, ← byteLanes_ofNat hv, dataOfBytes_byteLanes hd]

/-! ## The bare units as a pair (R129) -/

/-- The lanes of the digits of a value hold digits. -/
theorem laneGet_digitBytes (v : Nat) (i : Fin 5) :
    (laneGet (lanesOf 0#8 (digitBytes v)) i).toNat = digitAt v i.val := by
  rw [laneGet_lanesOf, digitBytes_getD v i.isLt, toNat_digitByte]

theorem laneGet_digitBytes_le (v : Nat) (i : Fin 5) : (laneGet (lanesOf 0#8 (digitBytes v)) i).toNat ≤ 84 := by
  rw [laneGet_digitBytes]
  exact Nat.le_of_lt_succ (digitAt_lt v i.val)

/-- R103 (a) on lanes. -/
theorem exactValue_digitBytes (v : Value) : exactValue (lanesOf 0#8 (digitBytes v.toNat)) = v.toNat := by
  have hl (i : Fin 5) := laneGet_digitBytes v.toNat i
  calc
    exactValue (lanesOf 0#8 (digitBytes v.toNat))
    _ = digitAt v.toNat 0 * 85 ^ 4 + digitAt v.toNat 1 * 85 ^ 3 + digitAt v.toNat 2 * 85 ^ 2 +
          digitAt v.toNat 3 * 85 + digitAt v.toNat 4 := by
      rw [exactValue_eq_laneGet, hl, hl, hl, hl, hl]
      rfl
    _ = v.toNat := (digits_value v).symm

/-- Different digit vectors have different values. -/
theorem exactValue_injective {x y : Five Byte} (hx : ∀ i, (laneGet x i).toNat ≤ 84)
    (hy : ∀ i, (laneGet y i).toNat ≤ 84) (h : exactValue x = exactValue y) : x = y := by
  have hx := lanes_le hx
  have hy := lanes_le hy
  rcases x with ⟨x0, x1, x2, x3, x4⟩
  rcases y with ⟨y0, y1, y2, y3, y4⟩
  simp only [exactValue] at h hx hy
  simp only [Five.mk.injEq, ← BitVec.toNat_inj]
  omega

/-- The digits of a value that was reduced modulo 2^32 are no longer those it came from. -/
theorem digitBytes_exactValue_iff {x : Five Byte} (hx : ∀ i, (laneGet x i).toNat ≤ 84) :
    lanesOf 0#8 (digitBytes (exactValue x % 2 ^ 32)) = x ↔ exactValue x < 2 ^ 32 := by
  have hv : exactValue (lanesOf 0#8 (digitBytes (exactValue x % 2 ^ 32))) = exactValue x % 2 ^ 32 := by
    simpa only [BitVec.toNat_ofNat] using exactValue_digitBytes (BitVec.ofNat 32 (exactValue x))
  constructor
  · intro h
    rw [h] at hv
    omega
  · intro h
    exact exactValue_injective (laneGet_digitBytes_le _) hx (hv.trans (Nat.mod_eq_of_lt h))

/-- The value that DECW answers, as ENCW takes it. -/
theorem toNat_rspData_decwResponse (x : Five Byte) :
    ((rspData (decwResponse x)).setWidth 32).toNat = exactValue x % 2 ^ 32 := by
  rw [decwResponse, rspData_okWord, BitVec.toNat_setWidth, BitVec.toNat_ofNat]
  omega

/-- Settles O36: a value tells its digits, and digits their value unless that was reduced modulo 2^32. -/
theorem unitsAreInverse : Obligations.UnitsAreInverse := by
  refine ⟨fun v => ?_, fun x hx => ?_⟩
  · rw [answer_encw, rspData_okWord, charLanes_dataOfChars, answer_decw (laneGet_digitBytes_le _), decwResponse,
      exactValue_digitBytes, Nat.mod_eq_of_lt v.isLt, decide_eq_false (Nat.not_le.mpr v.isLt), BitVec.ofNat_toNat]
  · dsimp only
    rw [answer_decw hx, answer_encw, rspData_okWord, charLanes_dataOfChars, toNat_rspData_decwResponse,
      digitBytes_exactValue_iff hx, decwResponse, rspOvf_okWord, decide_eq_false_iff_not, Nat.not_le]

end Sys2Proof.Machine
end

section
/-! PROOFS. The statements of 43_stream_host.md: the results of the stream procedures as functions, and that the two
hosts reach them edge by edge at the ports. -/

namespace Sys2Proof.Machine

/-! ## Chunks (43_stream_host.md R141, R142) -/

/-- From an empty carry, byte by byte or in full groups is the same. -/
theorem encodeByByte_nil (chunk : List Byte) : encodeByByte [] chunk = groupsOfFour chunk := by
  induction chunk using groupsOfFour_induction with
  | full b0 b1 b2 b3 rest ih =>
    rw [encodeByByte_full [] _ (by simp) (by simp), groupsOfFour, ← ih]
    rfl
  | none => rfl
  | short bs h1 h4 => rw [encodeByByte_short [] bs (by simpa using h4), groupsOfFour_short bs h4, List.nil_append]

theorem encodeChunk_eq_encodeByByte {carry : List Byte} (hc : carry.length ≤ 3) (chunk : List Byte) :
    encodeChunk carry chunk = encodeByByte carry chunk := by
  rw [encodeChunk]
  rcases eq_or_ne carry [] with rfl | hne
  · exact (encodeByByte_nil chunk).symm
  · rw [if_neg (by simpa using hne)]
    dsimp only
    rcases Nat.lt_or_ge (carry.length + chunk.length) 4 with h | h
    · rw [List.take_of_length_le (by omega), if_neg (by rw [List.length_append]; omega),
        encodeByByte_short carry chunk h]
    · rw [if_pos (by rw [List.length_append, List.length_take]; omega), encodeByByte_full carry chunk hc h,
        encodeByByte_nil]

theorem encodeByByte_carry_le {carry : List Byte} (hc : carry.length ≤ 3) (chunk : List Byte) :
    (encodeByByte carry chunk).2.length ≤ 3 := by
  rcases Nat.lt_or_ge (carry.length + chunk.length) 4 with h | h
  · rw [encodeByByte_short carry chunk h, List.length_append]
    omega
  · rw [encodeByByte_full carry chunk hc h, encodeByByte_nil]
    exact groupsOfFour_rest _

/-- Settles O52: both statements complete the carry first and cut what follows into groups of four. -/
theorem chunkStepsEqualByteByByte : Obligations.ChunkStepsEqualByteByByte := fun _ chunk hc =>
  have h := encodeChunk_eq_encodeByByte hc chunk
  ⟨h, h ▸ encodeByByte_carry_le hc chunk⟩

/-! ## The encoded text (R143, R144) -/

/-- A full group at the head is a block of its own. -/
theorem encodeBlocks_append {block : List Byte} (h : block.length = 4) (rest : List Byte) :
    encodeBlocks (block ++ rest) = block :: encodeBlocks rest := by
  match block, h with
  | [_, _, _, _], _ => rfl

/-- A block that is not full stands alone, if it holds anything. -/
theorem encodeBlocks_short {bs : List Byte} (h : bs.length < 4) :
    encodeBlocks bs = if bs.isEmpty then [] else [bs] := by
  rw [encodeBlocks, groupsOfFour_short bs h, List.nil_append]

/-- What the bytes of one chunk add to the blocks of a stream. -/
theorem encodeBlocks_encodeByByte (carry chunk rest : List Byte) :
    encodeBlocks (carry ++ (chunk ++ rest)) =
      (encodeByByte carry chunk).1 ++ encodeBlocks ((encodeByByte carry chunk).2 ++ rest) := by
  induction chunk generalizing carry with
  | nil => rfl
  | cons b chunk ih =>
    rw [encodeByByte, List.cons_append, List.append_cons]
    split
    next h4 =>
      rw [encodeBlocks_append (by simpa using h4), ← List.nil_append (chunk ++ rest), ih]
      rfl
    next => exact ih (carry ++ [b])

/-- The blocks of a stream are those of its carry and chunks joined. -/
theorem encodeChunks_eq {carry : List Byte} (hc : carry.length ≤ 3) (chunks : List (List Byte)) :
    encodeChunks carry chunks = encodeBlocks (carry ++ chunks.flatten) := by
  induction chunks generalizing carry with
  | nil => rw [List.flatten_nil, List.append_nil, encodeBlocks_short (by omega), encodeChunks]
  | cons c cs ih =>
    rw [encodeChunks, List.flatten_cons, encodeBlocks_encodeByByte, encodeChunk_eq_encodeByByte hc,
      ih (encodeByByte_carry_le hc c)]

theorem encodeStream_eq (chunks : List (List Byte)) : encodeStream chunks = encodeText chunks.flatten := by
  rw [encodeStream, encodeChunks_eq (carry := []) (Nat.zero_le 3), List.nil_append, encodeText]

/-- R144 by groups. -/
theorem encodeText_eq_groups (bs : List Byte) :
    encodeText bs =
      ((List.range (bs.length / 4)).flatMap fun g => encodeBlock ((bs.drop (4 * g)).take 4)) ++
        (if bs.length % 4 = 0 then [] else encodeBlock (bs.drop (4 * (bs.length / 4)))) := by
  rw [encodeText, encodeBlocks_eq, List.flatMap_append, groupsOf, List.flatMap_map,
    apply_ite (List.flatMap encodeBlock), List.flatMap_nil, List.flatMap_singleton]

@[simp] theorem encodeText_nil : encodeText [] = [] := rfl

theorem encodeText_short {bs : List Byte} (h1 : 1 ≤ bs.length) (h4 : bs.length < 4) :
    encodeText bs = encodeBlock bs := by
  rw [encodeText, encodeBlocks_short h4, if_neg (by simpa using List.ne_nil_of_length_pos h1), List.flatMap_singleton]

/-- Induction on a byte sequence by its blocks, as the text is made of them (R144). -/
theorem encodeText_induction {P : List Byte → List Byte → Prop} (none : P [] [])
    (block : ∀ bs rest : List Byte, 1 ≤ bs.length → bs.length ≤ 4 → (bs.length < 4 → rest = []) →
      P rest (encodeText rest) → P (bs ++ rest) (encodeBlock bs ++ encodeText rest)) (bs : List Byte) :
    P bs (encodeText bs) := by
  induction bs using groupsOfFour_induction with
  | full b0 b1 b2 b3 rest ih => exact block [b0, b1, b2, b3] rest (by simp) (by simp) (by simp) ih
  | none => exact none
  | short bs h1 h4 =>
    rw [encodeText_short h1 h4]
    simpa using block bs [] h1 h4.le (fun _ => rfl) none

theorem length_encodeBlock {bs : List Byte} (h1 : 1 ≤ bs.length) (h4 : bs.length ≤ 4) :
    (encodeBlock bs).length = bs.length + 1 := by rw [encodeBlock_eq h1 h4, leadingChars_length]

/-- The length of R144. -/
theorem length_encodeText (bs : List Byte) :
    (encodeText bs).length = 5 * (bs.length / 4) + if bs.length % 4 = 0 then 0 else bs.length % 4 + 1 := by
  induction bs using encodeText_induction with
  | none => rfl
  | block bs rest h1 h4 hlast ih =>
    rw [List.length_append, List.length_append, length_encodeBlock h1 h4, ih]
    rcases h4.lt_or_eq with h | h
    · obtain rfl := hlast h
      have h0 : bs.length ≠ 0 := by omega
      simp [Nat.div_eq_of_lt h, Nat.mod_eq_of_lt h, h0]
    · rw [h, Nat.add_mod_left]
      omega

/-- Settles O53: the blocks are those of the joined chunks. -/
theorem encodingDoesNotDependOnChunks : Obligations.EncodingDoesNotDependOnChunks := by
  intro chunks
  dsimp only
  rw [encodeStream_eq]
  exact ⟨encodeText_eq_groups _, rfl, length_encodeText _⟩

/-! ## The whitespace filter (R145) -/

/-- The codes that the filter drops. -/
def whitespaceCodes : List Byte := [0x20#8, 0x09#8, 0x0A#8, 0x0D#8, 0x0B#8, 0x0C#8]

theorem isWhitespace_iff (c : Byte) : isWhitespace c = true ↔ c ∈ whitespaceCodes := by
  simp [isWhitespace, whitespaceCodes, or_assoc]

theorem whitespaceCodes_not_inAlphabet : ∀ c ∈ whitespaceCodes, ¬InAlphabet c := by decide +kernel

@[simp] theorem dropWhitespace_append (a b : List Byte) :
    dropWhitespace (a ++ b) = dropWhitespace a ++ dropWhitespace b := List.filter_append a b

theorem dropWhitespace_of_isWhitespace {ws : List Byte} (h : ∀ c ∈ ws, isWhitespace c = true) :
    dropWhitespace ws = [] := by
  rw [dropWhitespace, List.filter_eq_nil_iff]
  simpa using h

theorem dropWhitespace_of_inAlphabet {cs : List Byte} (h : ∀ c ∈ cs, InAlphabet c) : dropWhitespace cs = cs := by
  rw [dropWhitespace, List.filter_eq_self]
  intro c hc
  rw [Bool.not_eq_true', Bool.eq_false_iff]
  exact fun hw => whitespaceCodes_not_inAlphabet c ((isWhitespace_iff c).mp hw) (h c hc)

/-- Settles O54: a decode reads what the filter leaves of its input, and the filter leaves nothing of these codes. -/
theorem whitespaceDoesNotMatter : Obligations.WhitespaceDoesNotMatter := by
  refine ⟨isWhitespace_iff, whitespaceCodes_not_inAlphabet, fun input => ?_, fun a ws b hws => ?_⟩
  · exact List.filter_congr fun c _ =>
      congrArg not (Bool.eq_iff_iff.mpr ((isWhitespace_iff c).trans List.contains_iff_mem.symm))
  · have hnil := dropWhitespace_of_isWhitespace fun c hc => (isWhitespace_iff c).mpr (hws c hc)
    simp [decodeText, hnil]

/-! ## The blocks of a stream decode (R147 to R149) -/

/-- From two characters on, the first block is decoded, and then what follows it. -/
theorem decodeChars_of_two_le (pos : Nat) {cs : List Byte} (h : 2 ≤ cs.length) :
    decodeChars pos cs = decodeBlock pos (cs.take 5) (decodeChars (pos + 5) (cs.drop 5)) := by
  rcases Nat.lt_or_ge cs.length 5 with h5 | h5
  · rw [decodeChars_short pos cs h h5, List.take_of_length_le h5.le, List.drop_of_length_le h5.le]
    rfl
  · match cs, h5 with
    | _ :: _ :: _ :: _ :: _ :: _, _ => rfl

theorem decodeChars_append (pos : Nat) {block : List Byte} (h : block.length = 5) (rest : List Byte) :
    decodeChars pos (block ++ rest) = decodeBlock pos block (decodeChars (pos + 5) rest) := by
  rw [decodeChars_of_two_le pos (by rw [List.length_append]; omega), List.take_left' h, List.drop_left' h]

theorem answer_decbWord_badCharacter {cs : List Byte} (h2 : 2 ≤ cs.length) (h5 : cs.length ≤ 5) {i : Nat}
    (hi : i < cs.length) (hbad : ¬InAlphabet (cs.getD i 0#8)) (hlow : ∀ j, j < i → InAlphabet (cs.getD j 0#8)) :
    answer (decbWord cs) = errorWord .invalidCharacter (BitVec.ofNat 4 i) (cs.getD i 0#8) := by
  have hl := toNat_lenField h5
  have hx := exec_decb_badCharacter (s := State.reset) rfl (len := BitVec.ofNat 4 cs.length) (c := lanesOf 0#8 cs)
    (i := ⟨i, by omega⟩)
  simp only [hl, laneGet_lanesOf] at hx
  rw [decbWord_eq_encode]
  exact answer_encode_of_answered (hx ⟨h2, h5⟩ hi hbad fun j hj => hlow j.val hj)

/-- A block with a character not in the alphabet ends the operation with the position of the first (R149). -/
theorem decodeBlock_badCharacter {cs : List Byte} (h2 : 2 ≤ cs.length) (h5 : cs.length ≤ 5) {i : Nat}
    (hi : i < cs.length) (hbad : ¬InAlphabet (cs.getD i 0#8)) (hlow : ∀ j, j < i → InAlphabet (cs.getD j 0#8))
    (pos : Nat) (rest : DecodeOutcome) :
    decodeBlock pos cs rest = ⟨[], .invalidCharacter (cs.getD i 0#8) cs (pos + i)⟩ := by
  have hp : (BitVec.ofNat 4 i).toNat = i := toNat_lenField (by omega)
  rw [decodeBlock, answer_decbWord_badCharacter h2 h5 hi hbad hlow, decodeFailure, rspStatus_errorWord,
    if_neg (by decide), if_pos rfl, rspErrchar_errorWord, rspErrpos_errorWord, hp]

/-- A block of characters of the alphabet is written, and the rest decides how the decode ends. -/
theorem decodeBlock_inAlphabet {cs : List Byte} (h2 : 2 ≤ cs.length) (h5 : cs.length ≤ 5)
    (hc : ∀ c ∈ cs, InAlphabet c) (pos : Nat) (rest : DecodeOutcome) :
    decodeBlock pos cs rest = ⟨rspBytes (answer (decbWord cs)) ++ rest.out, rest.result⟩ :=
  decodeBlock_of_ok (by rw [answer_decbWord_ok h2 h5 hc, decbOkResponse, rspStatus_okWord]) pos rest

/-! ## The outcome of a stream decode (R151) -/

/-- Block number `g` of a character sequence. -/
def blockAt (cs : List Byte) (g : Nat) : List Byte := (cs.drop (5 * g)).take 5

/-- The bytes of the first `n` blocks of a character sequence. -/
def blockBytes (cs : List Byte) (n : Nat) : List Byte :=
  (List.range n).flatMap fun g => rspBytes (answer (decbWord (blockAt cs g)))

theorem blockBytes_succ (cs : List Byte) (n : Nat) :
    blockBytes cs (n + 1) = blockBytes cs n ++ rspBytes (answer (decbWord (blockAt cs n))) := by
  rw [blockBytes, List.range_succ, List.flatMap_append, List.flatMap_singleton, blockBytes]

theorem length_blockAt (cs : List Byte) (g : Nat) : (blockAt cs g).length = min 5 (cs.length - 5 * g) := by
  rw [blockAt, List.length_take, List.length_drop]

theorem blockAt_getD (cs : List Byte) (g : Nat) {i : Nat} (h : i < 5) :
    (blockAt cs g).getD i 0#8 = cs.getD (5 * g + i) 0#8 := by
  simp [blockAt, List.getD_eq_getElem?_getD, List.getElem?_take_of_lt h]

/-- The characters of a sequence are in the alphabet below position `n`. -/
def InAlphabetBelow (cs : List Byte) (n : Nat) : Prop := ∀ q, q < n → InAlphabet (cs.getD q 0#8)

theorem InAlphabetBelow.mono {cs : List Byte} {m n : Nat} (h : InAlphabetBelow cs n) (hmn : m ≤ n) :
    InAlphabetBelow cs m := fun q hq => h q (by omega)

theorem InAlphabetBelow.mem_blockAt {cs : List Byte} {n g : Nat} (h : InAlphabetBelow cs n)
    (hg : 5 * g + (blockAt cs g).length ≤ n) : ∀ c ∈ blockAt cs g, InAlphabet c := by
  intro c hc
  obtain ⟨i, hi, rfl⟩ := List.getElem_of_mem hc
  have hl := length_blockAt cs g
  rw [← List.getD_eq_getElem _ 0#8 hi, blockAt_getD cs g (by omega)]
  exact h _ (by omega)

/-- Full blocks of characters of the alphabet are written, and what follows them decides how the decode ends. -/
theorem decodeChars_goodBlocks {cs : List Byte} {k : Nat} (hk : 5 * k ≤ cs.length) (h : InAlphabetBelow cs (5 * k))
    (pos : Nat) :
    decodeChars pos cs =
      ⟨blockBytes cs k ++ (decodeChars (pos + 5 * k) (cs.drop (5 * k))).out,
        (decodeChars (pos + 5 * k) (cs.drop (5 * k))).result⟩ := by
  induction k with
  | zero => rfl
  | succ k ih =>
    have hl : (blockAt cs k).length = 5 := by rw [length_blockAt]; omega
    have htail : decodeChars (pos + 5 * k) (cs.drop (5 * k)) =
        ⟨rspBytes (answer (decbWord (blockAt cs k))) ++ (decodeChars (pos + 5 * (k + 1)) (cs.drop (5 * (k + 1)))).out,
          (decodeChars (pos + 5 * (k + 1)) (cs.drop (5 * (k + 1)))).result⟩ := by
      rw [decodeChars_of_two_le _ (by rw [List.length_drop]; omega), List.drop_drop, ← blockAt,
        decodeBlock_inAlphabet (by omega) hl.le (h.mem_blockAt (by omega))]
      rfl
    rw [ih (by omega) (h.mono (by omega)), htail, blockBytes_succ, List.append_assoc]

theorem length_blockBytes {cs : List Byte} {k : Nat} (hk : 5 * k ≤ cs.length) (h : InAlphabetBelow cs (5 * k)) :
    (blockBytes cs k).length = 4 * k := by
  induction k with
  | zero => rfl
  | succ k ih =>
    have hl : (blockAt cs k).length = 5 := by rw [length_blockAt]; omega
    rw [blockBytes_succ, List.length_append, ih (by omega) (h.mono (by omega)),
      rspBytes_answer_decbWord (by omega) hl.le (h.mem_blockAt (by omega)), leadingBytes_length, hl]
    omega

/-- R151, `InvalidCharacter`. -/
theorem decodeChars_invalidCharacter {cs : List Byte} {p : Nat} (hp : p < cs.length)
    (hbad : ¬InAlphabet (cs.getD p 0#8)) (hlow : InAlphabetBelow cs p)
    (hlast : ¬(p + 1 = cs.length ∧ cs.length % 5 = 1)) :
    decodeChars 0 cs = ⟨blockBytes cs (p / 5), .invalidCharacter (cs.getD p 0#8) (blockAt cs (p / 5)) p⟩ := by
  have hl := length_blockAt cs (p / 5)
  have hpos : 5 * (p / 5) + p % 5 = p := Nat.div_add_mod p 5
  have hget : (blockAt cs (p / 5)).getD (p % 5) 0#8 = cs.getD p 0#8 := by
    rw [blockAt_getD cs _ (Nat.mod_lt p (by decide)), hpos]
  have hfail : ∀ rest, decodeBlock (0 + 5 * (p / 5)) (blockAt cs (p / 5)) rest =
      ⟨[], .invalidCharacter (cs.getD p 0#8) (blockAt cs (p / 5)) p⟩ := by
    intro rest
    rw [decodeBlock_badCharacter (i := p % 5) (by omega) (by omega) (by omega) (hget ▸ hbad) ?_, hget,
      Nat.zero_add, hpos]
    intro j hj
    rw [blockAt_getD cs _ (by omega)]
    exact hlow _ (by omega)
  rw [decodeChars_goodBlocks (k := p / 5) (by omega) (hlow.mono (by omega)),
    decodeChars_of_two_le _ (by rw [List.length_drop]; omega), ← blockAt, hfail, List.append_nil]

/-- R151, `TruncatedInput`. -/
theorem decodeChars_truncatedInput {cs : List Byte} (h : InAlphabetBelow cs (5 * (cs.length / 5)))
    (h1 : cs.length % 5 = 1) : decodeChars 0 cs = ⟨blockBytes cs (cs.length / 5), .truncatedInput⟩ := by
  obtain ⟨c, hc⟩ := List.length_eq_one_iff.mp ((length_drop_groups 5 cs).trans h1)
  rw [decodeChars_goodBlocks (Nat.mul_div_le ..) h, hc, decodeChars, List.append_nil]

/-- R151, success. -/
theorem decodeChars_ok {cs : List Byte} (h : InAlphabetBelow cs cs.length) (h1 : cs.length % 5 ≠ 1) :
    decodeChars 0 cs = ⟨blockBytes cs ((cs.length + 4) / 5), .ok⟩ ∧
      (decodeChars 0 cs).out.length = 4 * (cs.length / 5) + if cs.length % 5 = 0 then 0 else cs.length % 5 - 1 := by
  have hdiv : 5 * (cs.length / 5) ≤ cs.length := Nat.mul_div_le ..
  have hfull := length_blockBytes hdiv (h.mono hdiv)
  have hdrop := length_drop_groups 5 cs
  rw [decodeChars_goodBlocks hdiv (h.mono hdiv)]
  rcases Nat.eq_zero_or_pos (cs.length % 5) with h0 | h0
  · rw [List.eq_nil_of_length_eq_zero (hdrop.trans h0), if_pos h0, show (cs.length + 4) / 5 = cs.length / 5 by omega]
    simp [decodeChars, hfull]
  · have hl : (blockAt cs (cs.length / 5)).length = cs.length % 5 := by rw [length_blockAt]; omega
    have hc := h.mem_blockAt (g := cs.length / 5) (by omega)
    rw [decodeChars_of_two_le _ (by omega), List.drop_drop,
      List.drop_of_length_le (i := 5 * (cs.length / 5) + 5) (by omega), ← blockAt,
      decodeBlock_inAlphabet (by omega) (by omega) hc, if_neg (by omega),
      show (cs.length + 4) / 5 = cs.length / 5 + 1 by omega, blockBytes_succ]
    simp [decodeChars, hfull, rspBytes_answer_decbWord (by omega) (by omega) hc, hl]

/-- Settles O55: the full blocks before the end are written, and what follows them decides. -/
theorem decodeOutcomes : Obligations.DecodeOutcomes := fun _ =>
  ⟨fun _ hp hbad hlow hlast => decodeChars_invalidCharacter hp hbad hlow hlast,
    fun h h1 => decodeChars_truncatedInput h h1, fun h h1 => decodeChars_ok h h1⟩

/-! ## The round trip (R153) -/

theorem inAlphabet_encodeText (bs : List Byte) : ∀ c ∈ encodeText bs, InAlphabet c := by
  induction bs using encodeText_induction with
  | none => simp
  | block bs rest h1 h4 _ ih =>
    rw [encodeBlock_eq h1 h4, List.forall_mem_append]
    exact ⟨leadingChars_inAlphabet _ _, ih⟩

/-- The characters of an encoded block are decoded to its bytes (R126). -/
theorem decodeBlock_encodeBlock {bs : List Byte} (h1 : 1 ≤ bs.length) (h4 : bs.length ≤ 4) (pos : Nat)
    (rest : DecodeOutcome) : decodeBlock pos (encodeBlock bs) rest = ⟨bs ++ rest.out, rest.result⟩ := by
  have ha := answer_decbWord_encodeBlock h1 h4
  rw [decodeBlock_of_ok (by rw [ha, rspStatus_okWord]), ha, rspBytes_okWord h4 (toNat_lenField (by omega))]

theorem decodeChars_encodeText (bs : List Byte) : ∀ pos, decodeChars pos (encodeText bs) = ⟨bs, .ok⟩ := by
  induction bs using encodeText_induction with
  | none => exact fun _ => rfl
  | block bs rest h1 h4 hlast ih =>
    intro pos
    have hl := length_encodeBlock h1 h4
    have hcut : (encodeBlock bs ++ encodeText rest).take 5 = encodeBlock bs ∧
        (encodeBlock bs ++ encodeText rest).drop 5 = encodeText rest := by
      rcases h4.lt_or_eq with h | h
      · obtain rfl := hlast h
        simp [hl, Nat.succ_le_succ h4]
      · exact ⟨List.take_left' (by omega), List.drop_left' (by omega)⟩
    rw [decodeChars_of_two_le _ (by rw [List.length_append]; omega), hcut.1, hcut.2, ih,
      decodeBlock_encodeBlock h1 h4]

/-- Settles O56: the text has no whitespace, and each of its blocks is decoded to the bytes it was made of. -/
theorem streamRoundTrip : Obligations.StreamRoundTrip := by
  intro chunks
  rw [encodeStream_eq, decodeText, dropWhitespace_of_inAlphabet (inAlphabet_encodeText _), decodeChars_encodeText]

/-! ## Edges of a stream host at the ports (30_encoding.md R63; R140) -/

/-- An idle block under constant tables, no `rst` due, and its host. -/
structure IdleUnder (d : Driver) (s : State) : Prop where
  constant : s.mem.constant = true
  notBusy : s.busy = false
  nonePending : s.rspv = false
  noRst : s.rstIn = []
  driver : s.driver = d

/-- A block with the command `w` in flight, and its host. -/
structure InFlightUnder (w : Command) (d : Driver) (s : State) : Prop where
  constant : s.mem.constant = true
  busy : s.busy = true
  nonePending : s.rspv = false
  noRst : s.rstIn = []
  latched : s.latched = w
  driver : s.driver = d

/-- A block that offers the response `w`, and its host. -/
structure OffersUnder (w : ResponseWord) (d : Driver) (s : State) : Prop where
  responded : Responded w s
  driver : s.driver = d

theorem takenWord_of_nonePending {s : State} (h : s.rspv = false) : s.takenWord = none := by
  simp [State.takenWord, State.takes, State.rspValid, h]

/-- At an edge at which its host presents nothing an idle block stays idle, and the host moves on. -/
theorem IdleUnder.reads {d : Driver} {s : State} (hs : IdleUnder d s) (hp : (driverPins d).cmdValid = false) :
    ∃ t, step s = .next t ∧ IdleUnder (driverMove false false none d) t := by
  obtain ⟨hm, hb, hv, hr, rfl⟩ := hs
  have hrst := rst_of_rstIn_nil hr
  have ha : s.accepts = false := by simp [State.accepts, hp]
  obtain ⟨b, hblock, hev⟩ := blockEdge_event s
  obtain rfl := hev.of_not_accepts hrst hb ha
  exact ⟨_, step_of_blockEdge hblock, hm, hb, by simp [hv], by simp [hr],
    by simp [hrst, ha, takenWord_of_nonePending hv]⟩

/-- A command presented to an idle block is accepted, and may complete. -/
theorem IdleUnder.accept {d : Driver} {s : State} (hs : IdleUnder d s) (hp : (driverPins d).cmdValid = true) :
    ∃ t, step s = .next t ∧
      (InFlightUnder (driverPins d).cmd (driverMove false true none d) t ∨
        OffersUnder (answer (driverPins d).cmd) (driverMove false true none d) t) := by
  obtain ⟨hm, hb, hv, hr, rfl⟩ := hs
  have hrst := rst_of_rstIn_nil hr
  have ha : s.accepts = true := by simp [State.accepts, State.cmdReady, hp, hb, hv, hrst]
  have hd (b : State) : (s.outsideEdge b).driver = driverMove false true none s.driver := by
    simp [hrst, ha, takenWord_of_nonePending hv]
  obtain ⟨b, hblock, hev⟩ := blockEdge_event s
  refine ⟨_, step_of_blockEdge hblock, ?_⟩
  obtain rfl | he := hev.of_accepts ha
  · exact .inl ⟨hm, rfl, hv, by simp [hr], latched_accept s _, hd _⟩
  · exact .inr ⟨responded_of_exec (s := s.accept _) hm hr he, hd b⟩

/-- At each edge a command in flight completes or goes on, its host waiting. -/
theorem InFlightUnder.goesOn {w : Command} {d : Driver} {s : State} (hs : InFlightUnder w d s)
    (hd : driverMove false false none d = d) :
    ∃ t, step s = .next t ∧ (OffersUnder (answer w) d t ∨ InFlightUnder w d t ∧ t.wait < s.wait) := by
  obtain ⟨hm, hb, hv, hr, rfl, rfl⟩ := hs
  have hrst := rst_of_rstIn_nil hr
  have hd (b : State) : (s.outsideEdge b).driver = s.driver := by
    simp [hrst, State.accepts, State.cmdReady, hb, takenWord_of_nonePending hv, hd]
  obtain ⟨b, hblock, hev⟩ := blockEdge_event s
  refine ⟨_, step_of_blockEdge hblock, ?_⟩
  obtain ⟨-, he⟩ | ⟨hw, rfl⟩ := hev.of_busy hrst hb
  · exact .inl ⟨responded_of_exec hm hr he, hd b⟩
  · exact .inr ⟨⟨hm, hb, hv, by simp [hr], rfl, hd _⟩, by simp only [State.outsideEdge_wait]; omega⟩

/-- A command in flight is answered after finitely many edges (R202). -/
theorem InFlightUnder.run {w : Command} {d : Driver} {s : State} (hs : InFlightUnder w d s)
    (hd : driverMove false false none d = d) :
    ∃ k t, Host.Core.run core k s = .next t ∧ OffersUnder (answer w) d t := by
  induction hn : s.wait using Nat.strong_induction_on generalizing s with
  | _ n ih =>
    obtain ⟨t, hstep, ht | ⟨ht, hlt⟩⟩ := hs.goesOn hd
    · exact ⟨1, t, run_succ 0 hstep, ht⟩
    · obtain ⟨k, u, hrun, hu⟩ := ih t.wait (hn ▸ hlt) ht rfl
      exact ⟨k + 1, u, (run_succ k hstep).trans hrun, hu⟩

/-- A host that is ready takes the response. -/
theorem OffersUnder.take {w : ResponseWord} {d : Driver} {s : State} (hs : OffersUnder w d s)
    (hp : (driverPins d).rspReady = true) :
    ∃ t, step s = .next t ∧ IdleUnder (driverMove false false (some w) d) t := by
  obtain ⟨⟨⟨rfl, hv, hb⟩, hm, hr⟩, rfl⟩ := hs
  have hrst := rst_of_rstIn_nil hr
  have ht : s.takes = true := by simp [State.takes, State.rspValid, hv, hrst, hp]
  exact ⟨_, step_of_takes hb ht, hm, hb, rfl, by simp [hr],
    by simp [hrst, not_accepts_of_rspv hv, State.takenWord, ht]⟩

/-- A host, from presenting the command `w` on: it awaits the response from the acceptance on, and takes it. -/
structure Transacts (w : Command) (d await : Driver) : Prop where
  presents : driverPins d = ⟨true, w, false⟩
  accepted : driverMove false true none d = await
  waits : driverMove false false none await = await
  ready : (driverPins await).rspReady = true

/-- One transaction of such a host at an idle block (R63). -/
theorem IdleUnder.transaction {w : Command} {d await : Driver} (h : Transacts w d await) {s : State}
    (hs : IdleUnder d s) :
    ∃ k t, Host.Core.run core k s = .next t ∧ IdleUnder (driverMove false false (some (answer w)) await) t := by
  obtain ⟨hp, rfl, hw, hready⟩ := h
  have hoffers : ∃ k t, Host.Core.run core k s = .next t ∧ OffersUnder (answer w) (driverMove false true none d) t := by
    obtain ⟨t, hstep, ht⟩ := hs.accept (by rw [hp])
    rw [hp] at ht
    obtain ht | ht := ht
    · obtain ⟨k, u, hrun, hu⟩ := ht.run hw
      exact ⟨k + 1, u, (run_succ k hstep).trans hrun, hu⟩
    · exact ⟨1, t, run_succ 0 hstep, ht⟩
  obtain ⟨k, t, hrun, ht⟩ := hoffers
  obtain ⟨u, hstep, hu⟩ := ht.take hready
  exact ⟨k + 1, u, run_trans hrun (run_succ 0 hstep), hu⟩

theorem transacts_encode (h : EncodeHost) :
    Transacts (encbWord h.ec) (.encode { h with phase := .presenting }) (.encode { h with phase := .awaiting }) :=
  ⟨rfl, rfl, rfl, rfl⟩

theorem transacts_decode (h : DecodeHost) :
    Transacts (decbWord h.dc) (.decode { h with phase := .presenting }) (.decode { h with phase := .awaiting }) :=
  ⟨rfl, rfl, rfl, rfl⟩

/-- A run from `s` comes to a host of which `P` holds. -/
def ReachesHost (P : Driver → Prop) (s : State) : Prop := ∃ n t, Host.Core.run core n s = .next t ∧ P t.driver

theorem ReachesHost.of_run {P : Driver → Prop} {s t : State} {k : Nat} (hrun : Host.Core.run core k s = .next t)
    (h : ReachesHost P t) : ReachesHost P s := by
  obtain ⟨n, u, hu, hp⟩ := h
  exact ⟨k + n, u, run_trans hrun hu, hp⟩

theorem ReachesHost.of_step {P : Driver → Prop} {s t : State} (hstep : step s = .next t) (h : ReachesHost P t) :
    ReachesHost P s := h.of_run (run_succ 0 hstep)

/-! ## The stream encoder at the ports (R140 to R144) -/

/-- The stream encoder has ended its operation with this text written. -/
def EncodeEnds (text : List Byte) (d : Driver) : Prop :=
  ∃ h : EncodeHost, d = .encode h ∧ h.phase = .finished .ok ∧ h.out = text

/-- A block of 1 to 4 bytes presented is written. -/
theorem encodeHost_writes_block {h : EncodeHost} (h1 : 1 ≤ h.ec.length) (h4 : h.ec.length ≤ 4) {s : State}
    (hs : IdleUnder (.encode { h with phase := .presenting }) s) :
    ∃ k t, Host.Core.run core k s = .next t ∧
      IdleUnder (.encode { h with out := h.out ++ encodeBlock h.ec, ec := [], phase := .reading }) t := by
  obtain ⟨k, t, hrun, ht⟩ := hs.transaction (transacts_encode h)
  have hok : rspStatus (answer (encbWord h.ec)) = statusCode .ok := by
    rw [encbWord_eq_encode, answer_encb]
    exact encbResponse_status_ok_iff.mpr (by rw [toNat_lenField (by omega)]; omega)
  simp only [driverMove, encodeMove, encodeTake, hok] at ht
  exact ⟨k, t, hrun, ht⟩

/-- The bytes of the chunk in hand join the carry one by one, and each carry of four is written (R142). -/
theorem encodeHost_takes_chunk (chunks : List (List Byte)) (chunk ec out : List Byte) {s : State}
    (hs : IdleUnder (.encode ⟨chunks, chunk, ec, out, .reading⟩) s) :
    ∃ k t, Host.Core.run core k s = .next t ∧
      IdleUnder (.encode ⟨chunks, [], (encodeByByte ec chunk).2, out ++ (encodeByByte ec chunk).1.flatMap encodeBlock,
        .reading⟩) t := by
  induction chunk generalizing ec out s with
  | nil => exact ⟨0, s, rfl, by simpa [encodeByByte] using hs⟩
  | cons b rest ih =>
    obtain ⟨t, hstep, ht⟩ := hs.reads rfl
    simp only [driverMove, encodeMove, encodeRead] at ht
    rw [encodeByByte]
    split
    next h4 =>
      rw [if_pos h4] at ht
      obtain ⟨k, u, hrun, hu⟩ := encodeHost_writes_block (h := ⟨chunks, rest, ec ++ [b], out, .presenting⟩) (by simp)
        (by simp [h4]) ht
      obtain ⟨n, v, hrun', hv⟩ := ih _ _ hu
      exact ⟨k + n + 1, v, (run_succ _ hstep).trans (run_trans hrun hrun'), by simpa using hv⟩
    next h4 =>
      rw [if_neg h4] at ht
      obtain ⟨k, u, hrun, hu⟩ := ih _ _ ht
      exact ⟨k + 1, u, (run_succ k hstep).trans hrun, hu⟩

/-- With its carry empty at the end of input the encoder ends its operation. -/
theorem encodeHost_ends {out : List Byte} {s : State} (hs : IdleUnder (.encode ⟨[], [], [], out, .reading⟩) s) :
    ReachesHost (EncodeEnds out) s := by
  obtain ⟨t, hstep, ht⟩ := hs.reads rfl
  exact .of_step hstep ⟨0, t, rfl, _, ht.driver, rfl, rfl⟩

/-- A carry left at the end of input is written as a short block (R143). -/
theorem encodeHost_flushes {ec out : List Byte} (hec : ec.length ≤ 3) {s : State}
    (hs : IdleUnder (.encode ⟨[], [], ec, out, .reading⟩) s) :
    ReachesHost (EncodeEnds (out ++ (encodeChunks ec []).flatMap encodeBlock)) s := by
  rcases eq_or_ne ec [] with rfl | hne
  · simpa [encodeChunks] using encodeHost_ends hs
  · obtain ⟨t, hstep, ht⟩ := hs.reads rfl
    have hne' : ec.isEmpty = false := by simpa using hne
    simp only [driverMove, encodeMove, encodeRead, hne'] at ht
    obtain ⟨k, u, hrun, hu⟩ := encodeHost_writes_block (h := ⟨[], [], ec, out, .presenting⟩)
      (List.length_pos_of_ne_nil hne) (by simp only; omega) ht
    rw [encodeChunks, hne', if_neg (by decide), List.flatMap_singleton]
    exact .of_step hstep (.of_run hrun (encodeHost_ends hu))

/-- The encoder writes the text of R142 and R143, chunk by chunk. -/
theorem encodeHost_writes_chunks (chunks : List (List Byte)) {ec : List Byte} (hec : ec.length ≤ 3) {out : List Byte}
    {s : State} (hs : IdleUnder (.encode ⟨chunks, [], ec, out, .reading⟩) s) :
    ReachesHost (EncodeEnds (out ++ (encodeChunks ec chunks).flatMap encodeBlock)) s := by
  induction chunks generalizing ec out s with
  | nil => exact encodeHost_flushes hec hs
  | cons c cs ih =>
    obtain ⟨t, hstep, ht⟩ := hs.reads rfl
    obtain ⟨k, u, hrun, hu⟩ := encodeHost_takes_chunk cs c ec out ht
    have hnext := ih (encodeByByte_carry_le hec c) hu
    rw [encodeChunks, encodeChunk_eq_encodeByByte hec, List.flatMap_append, ← List.append_assoc]
    exact .of_step hstep (.of_run hrun hnext)

/-- Settles O57: the encoder writes the text chunk by chunk, which does not depend on the chunks. -/
theorem encodeHostReachesTheText : Obligations.EncodeHostReachesTheText := by
  intro s chunks hm hb hv hr hd
  obtain ⟨n, t, hrun, h, hdriver, hphase, hout⟩ :=
    encodeHost_writes_chunks chunks (ec := []) (Nat.zero_le 3) ⟨hm, hb, hv, hr, hd⟩
  exact ⟨n, t, h, hrun, hdriver, hphase, hout.trans (encodeStream_eq chunks)⟩

/-! ## The stream decoder at the ports (R145 to R151) -/

/-- The stream decoder has ended its operation with this outcome, what it wrote behind `out`. -/
def DecodeEnds (out : List Byte) (o : DecodeOutcome) (d : Driver) : Prop :=
  ∃ h : DecodeHost, d = .decode h ∧ h.phase = .finished o.result ∧ h.out = out ++ o.out

/-- A block presented is written and the operation goes on, or it ends there (R147, R149). -/
theorem decodeHost_decodes_block {h : DecodeHost} {rest : DecodeOutcome} {s : State}
    (hs : IdleUnder (.decode { h with phase := .presenting }) s)
    (hrest : ∀ {t : State} {out : List Byte},
      IdleUnder (.decode { h with
        out := out, pos := if h.dc.length = 5 then h.pos + 5 else h.pos, dc := [], phase := .reading }) t →
      ReachesHost (DecodeEnds out rest) t) :
    ReachesHost (DecodeEnds h.out (decodeBlock h.pos h.dc rest)) s := by
  obtain ⟨k, t, hrun, ht⟩ := hs.transaction (transacts_decode h)
  refine .of_run hrun ?_
  simp only [driverMove, decodeMove, decodeTake] at ht
  rw [decodeBlock]
  split
  next hok =>
    rw [if_pos hok] at ht
    obtain ⟨n, u, hu, h', hdriver, hphase, hout⟩ := hrest ht
    exact ⟨n, u, hu, h', hdriver, hphase, by rw [hout, List.append_assoc]⟩
  next hok =>
    rw [if_neg hok] at ht
    exact ⟨0, t, rfl, _, ht.driver, rfl, (List.append_nil _).symm⟩

/-- A decoder that reads ends with the outcome of its carry and the characters it will read. -/
def DecodesFrom (chunks : List (List Byte)) (chunk : List Byte) : Prop :=
  ∀ {dc : List Byte} {pos : Nat} {out : List Byte} {s : State}, dc.length ≤ 4 →
    IdleUnder (.decode ⟨chunks, chunk, dc, pos, out, .reading⟩) s →
    ReachesHost (DecodeEnds out (decodeChars pos (dc ++ dropWhitespace (chunk ++ chunks.flatten)))) s

/-- With its carry empty at the end of input the decoder ends its operation. -/
theorem decodeHost_ends {pos : Nat} {out : List Byte} {s : State}
    (hs : IdleUnder (.decode ⟨[], [], [], pos, out, .reading⟩) s) : ReachesHost (DecodeEnds out ⟨[], .ok⟩) s := by
  obtain ⟨t, hstep, ht⟩ := hs.reads rfl
  exact .of_step hstep ⟨0, t, rfl, _, ht.driver, rfl, (List.append_nil out).symm⟩

/-- The end of input (R147, R148). -/
theorem decodesFrom_end : DecodesFrom [] [] := by
  intro dc pos out s hdc hs
  rw [List.flatten_nil, List.append_nil, dropWhitespace, List.filter_nil, List.append_nil]
  rcases (by omega : dc.length = 0 ∨ dc.length = 1 ∨ 2 ≤ dc.length) with h0 | h1 | h2
  · obtain rfl := List.eq_nil_of_length_eq_zero h0
    exact decodeHost_ends hs
  · obtain ⟨c, rfl⟩ := List.length_eq_one_iff.mp h1
    obtain ⟨t, hstep, ht⟩ := hs.reads rfl
    exact .of_step hstep ⟨0, t, rfl, _, ht.driver, rfl, (List.append_nil out).symm⟩
  · obtain ⟨t, hstep, ht⟩ := hs.reads rfl
    have hne : dc.isEmpty = false := by simpa using List.ne_nil_of_length_pos (by omega : 0 < dc.length)
    have h1 : dc.length ≠ 1 := by omega
    simp only [driverMove, decodeMove, decodeRead, hne, h1] at ht
    rw [decodeChars_short pos dc h2 (by omega)]
    exact .of_step hstep (decodeHost_decodes_block (h := ⟨[], [], dc, pos, out, .presenting⟩) ht decodeHost_ends)

/-- The next chunk. -/
theorem decodesFrom_nextChunk {c : List Byte} {cs : List (List Byte)} (h : DecodesFrom cs c) :
    DecodesFrom (c :: cs) [] := by
  intro dc pos out s hdc hs
  obtain ⟨t, hstep, ht⟩ := hs.reads rfl
  exact .of_step hstep (h hdc ht)

/-- The next byte: whitespace is skipped, and a carry of five is decoded (R145, R147). -/
theorem decodesFrom_byte {chunks : List (List Byte)} {rest : List Byte} (h : DecodesFrom chunks rest) (b : Byte) :
    DecodesFrom chunks (b :: rest) := by
  intro dc pos out s hdc hs
  obtain ⟨t, hstep, ht⟩ := hs.reads rfl
  refine .of_step hstep ?_
  simp only [driverMove, decodeMove, decodeRead] at ht
  by_cases hw : isWhitespace b = true
  · rw [if_pos hw] at ht
    rw [List.cons_append, dropWhitespace, List.filter_cons_of_neg (by simp [hw])]
    exact h hdc ht
  · rw [if_neg hw] at ht
    rw [List.cons_append, dropWhitespace, List.filter_cons_of_pos (by simp [hw]), List.append_cons]
    by_cases h5 : dc.length + 1 = 5
    · rw [if_pos h5] at ht
      have hl : (dc ++ [b]).length = 5 := by rw [List.length_append, List.length_singleton, h5]
      rw [decodeChars_append pos hl]
      refine decodeHost_decodes_block (h := ⟨chunks, rest, dc ++ [b], pos, out, .presenting⟩) ht fun hu => ?_
      rw [if_pos hl] at hu
      exact h (dc := []) (Nat.zero_le 4) hu
    · rw [if_neg h5] at ht
      exact h (by rw [List.length_append, List.length_singleton]; omega) ht

theorem decodesFrom (chunks : List (List Byte)) (chunk : List Byte) : DecodesFrom chunks chunk :=
  match chunks, chunk with
  | [], [] => decodesFrom_end
  | c :: cs, [] => decodesFrom_nextChunk (decodesFrom cs c)
  | chunks, b :: rest => decodesFrom_byte (decodesFrom chunks rest) b
termination_by (chunks.length, chunk.length)

/-- Settles O58: the decoder ends with the outcome of the characters it reads. -/
theorem decodeHostReachesTheOutcome : Obligations.DecodeHostReachesTheOutcome := by
  intro s chunks hm hb hv hr hd
  obtain ⟨n, t, hrun, h, hdriver, hphase, hout⟩ := decodesFrom chunks [] (dc := []) (Nat.zero_le 4) ⟨hm, hb, hv, hr, hd⟩
  exact ⟨n, t, h, hrun, hdriver, hphase, hout⟩

/-! ## `TruncatedInput` by either route (R148) -/

theorem answer_decbWord_one (c : Byte) : answer (decbWord [c]) = errorWord .malformedLength 0#4 0#8 := by
  rw [decbWord_eq_encode]
  exact answer_encode_of_answered (exec_decb_badLength (len := 1#4) (.inl (Nat.le_refl 1)) _ _)

theorem takenWord_of_ready {s : State} (hr : s.rst = false) (hv : s.rspv = true)
    (hp : (driverPins s.driver).rspReady = true) : s.takenWord = some s.rsp := by
  simp [State.takenWord, State.takes, State.rspValid, hr, hv, hp]

theorem driver_of_step {s t : State} (h : step s = .next t) :
    t.driver = driverMove s.rst s.accepts s.takenWord s.driver := by
  obtain ⟨b, -, rfl⟩ := event_of_step h
  rfl

theorem decodeMove_of_reading {h : DecodeHost} (hp : h.phase = .reading) (rst accepted : Bool)
    (taken : Option ResponseWord) : decodeMove rst accepted taken h = decodeRead h := by simp only [decodeMove, hp]

theorem decodeMove_of_taken {h : DecodeHost} (hp : h.phase = .awaiting) (accepted : Bool) (w : ResponseWord) :
    decodeMove false accepted (some w) h = decodeTake h w := by simp [decodeMove, hp]

/-- The host's own route. -/
theorem decodeRead_truncated {h : DecodeHost} {c : Byte} (hchunk : h.chunk = []) (hchunks : h.chunks = [])
    (hdc : h.dc = [c]) : decodeRead h = { h with phase := .finished .truncatedInput } := by
  simp [decodeRead, hchunk, hchunks, hdc]

/-- The route over the block's `MalformedLength`. -/
theorem decodeTake_malformedLength {h : DecodeHost} {c : Byte} (hdc : h.dc = [c]) :
    decodeTake h (errorWord .malformedLength 0#4 0#8) = { h with phase := .finished .truncatedInput } := by
  simp [decodeTake, decodeFailure, hdc, statusCode]

/-- Settles O60: the host's own move at the end of input, and its move on the block's answer. -/
theorem truncatedInputByEitherRoute : Obligations.TruncatedInputByEitherRoute := by
  refine ⟨fun s t h c hd hp hchunk hchunks hdc hstep => ?_, fun s t h c hd hp hdc hr hv hrsp hstep => ?_,
    answer_decbWord_one, fun text h1 => ?_⟩
  · have hpins : driverPins s.driver = idleDrive := by rw [hd, driverPins, hp, drivePhase]
    refine ⟨by rw [hpins]; rfl, ?_⟩
    rw [driver_of_step hstep, hd, driverMove, decodeMove_of_reading hp, decodeRead_truncated hchunk hchunks hdc]
  · have htaken : s.takenWord = some (errorWord .malformedLength 0#4 0#8) := by
      rw [takenWord_of_ready hr hv (by rw [hd, driverPins, hp, drivePhase]), hrsp, answer_decbWord_one]
    rw [driver_of_step hstep, hd, driverMove, hr, htaken, decodeMove_of_taken hp, decodeTake_malformedLength hdc]
  · obtain ⟨c, hc⟩ := List.length_eq_one_iff.mp h1
    rw [decodeText, hc, decodeChars]

end Sys2Proof.Machine
end

section
/-! PROOFS. The statements of 60_exceptions.md: which statuses a command can answer with, what a failing command leaves,
and that the block never stops. -/

namespace Sys2Proof.Machine

/-! ## The statuses of a command (60_exceptions.md R170) -/

/-- If the outcome answers, it answers with one of these statuses. -/
def StatusIn (codes : List (BitVec 4)) (o : Out) : Prop := ∀ w ∈ responseOf o, rspStatus w ∈ codes

section
variable {codes : List (BitVec 4)}

@[simp] theorem statusIn_fault (f : Fault) : StatusIn codes (.fault f) := by simp [StatusIn]
@[simp] theorem statusIn_respondOk (s : State) (len : BitVec 4) (d : Data) (o : Bool) :
    StatusIn codes (s.respondOk len d o) ↔ 0#4 ∈ codes := by simp [StatusIn]
@[simp] theorem statusIn_raise (s : State) (st : Status) (p : BitVec 4) (x : Byte) :
    StatusIn codes (s.raise st p x) ↔ statusCode st ∈ codes := by simp [StatusIn]

theorem StatusIn.rspStatus_mem {i : Instr} {s t : State} (he : exec i s = .next t) (h : StatusIn codes (exec i s)) :
    rspStatus t.rsp ∈ codes := h t.rsp (by simp [he])

end

theorem execA2c_statusIn (len : BitVec 4) (junk : BitVec 32) (idx : Byte) (s : State) :
    StatusIn [0#4, 3#4] (execA2c len junk idx s) := by
  unfold execA2c
  split
  · simp [statusCode]
  · split <;> simp

theorem execC2a_statusIn (len : BitVec 4) (junk : BitVec 32) (chr : Byte) (s : State) :
    StatusIn [0#4, 1#4] (execC2a len junk chr s) := by
  unfold execC2a
  split <;> simp [statusCode]

theorem execEncw_statusIn (len : BitVec 4) (junk : Byte) (v : Value) (s : State) :
    StatusIn [0#4] (execEncw len junk v s) := by
  simp [execEncw]

theorem execDecw_statusIn (len : BitVec 4) (x : Five Byte) (s : State) :
    StatusIn [0#4, 3#4] (execDecw len x s) := by
  unfold execDecw
  split <;> simp [statusCode]

theorem execEncb_statusIn (len : BitVec 4) (junk b0 b1 b2 b3 : Byte) (s : State) :
    StatusIn [0#4, 3#4] (execEncb len junk b0 b1 b2 b3 s) := by
  unfold execEncb
  split
  · simp [statusCode]
  · dsimp only
    split <;> simp

theorem execDecb_statusIn (len : BitVec 4) (c : Five Byte) (s : State) :
    StatusIn [0#4, 1#4, 2#4] (execDecb len c s) := by
  unfold execDecb
  split
  · simp [statusCode]
  · split <;> simp [statusCode]

theorem raiseIllegal_statusIn (s : State) : StatusIn [4#4] s.raiseIllegal := by
  simp [State.raiseIllegal, statusCode]

/-- Settles O39, command by command. -/
theorem statusesOfEachCommand : Obligations.StatusesOfEachCommand := by
  intro i s t he
  refine StatusIn.rspStatus_mem he ?_
  cases i with
  | a2c len junk idx => exact execA2c_statusIn len junk idx s
  | c2a len junk chr => exact execC2a_statusIn len junk chr s
  | encw len junk val => exact execEncw_statusIn len junk val s
  | decw len x => exact execDecw_statusIn len x s
  | encb len junk b0 b1 b2 b3 => exact execEncb_statusIn len junk b0 b1 b2 b3 s
  | decb len c => exact execDecb_statusIn len c s
  | illegal0 | illegal7 | illegal8 | illegal9 | illegalA | illegalB | illegalC | illegalD | illegalE | illegalF =>
    exact raiseIllegal_statusIn s

/-! ## A failing command (60_exceptions.md R179) -/

/-- A command that fails completes by its error response alone: the working registers are written on success only
(log entry 8). -/
theorem Completes.onlyResponds_of_failed {s t : State} (h : Completes s t) (hf : rspStatus t.rsp ≠ 0#4) :
    OnlyResponds s (.next t) := by
  cases h with
  | ok n g c len d o => simp at hf
  | error st p x => exact ⟨_, rfl⟩

/-- Settles O42, by the frame of a command that only responds. -/
theorem failingCommandOnlyResponds : Obligations.FailingCommandOnlyResponds := by
  intro i s t he hf
  have hc := completes_of_exec he
  obtain ⟨htables, hlatches, hwork⟩ := (hc.onlyResponds_of_failed hf).frame
  obtain ⟨hrspv, hbusy, -⟩ := hc.answered
  exact ⟨htables, hlatches, hwork, hrspv, hbusy⟩

/-! ## No stop (60_exceptions.md R180) -/

/-- Settles O6: from every state the block has an event, since every command completes. -/
theorem noStepEverStops : Obligations.NoStepEverStops := fun s =>
  let ⟨t, hblock, _⟩ := blockEdge_event s
  ⟨s.outsideEdge t, step_of_blockEdge hblock⟩

end Sys2Proof.Machine
end

section
/-! PROOFS. The statements of 70_reset_and_hazards.md: reset and the `rst` edge, the host's operand duties, commands at a
block that is not ready, and that an accepted command completes. -/

namespace Sys2Proof.Machine

/-! ## Reset (70_reset_and_hazards.md R190 to R192) -/

/-- A memory that holds its constants reads as R41 says at every address, those without a cell included. -/
theorem readFwd_eq_forwardTable {m : Memory} (h : m.constant = true) (a : Nat) : m.readFwd a = forwardTable[a]? := by
  rw [Memory.readFwd, Memory.fwd_of_constant h, fwdUnlisted]
  cases forwardTable[a]? with
  | none => rfl
  | some b => rfl

/-- Settles O1: no cell is listed at reset. -/
theorem resetIsIdleWithConstantTables : Obligations.ResetIsIdleWithConstantTables :=
  have hconst : State.reset.mem.constant = true := rfl
  ⟨rfl, rfl, readFwd_eq_forwardTable hconst, readRev_constant hconst, rfl⟩

section
variable {s : State} (hr : s.rst = true)
include hr

theorem cmdReady_of_rst : s.cmdReady = false := by simp [State.cmdReady, hr]

theorem rspValid_of_rst : s.rspValid = false := by simp [State.rspValid, hr]

theorem accepts_of_rst : s.accepts = false := by simp [State.accepts, cmdReady_of_rst hr]

theorem takes_of_rst : s.takes = false := by simp [State.takes, rspValid_of_rst hr]

theorem step_of_rst : step s = .next (s.outsideEdge s.resetEdge) := step_of_blockEdge (if_pos hr)

end

/-- Settles O2: the edge is the reset of the block and nothing else. -/
theorem rstEdgeIdlesTheBlock : Obligations.RstEdgeIdlesTheBlock := fun _ hr =>
  ⟨cmdReady_of_rst hr, rspValid_of_rst hr, accepts_of_rst hr, takes_of_rst hr, _, step_of_rst hr, rfl, rfl,
    sameTables_of_mem_eq rfl, rfl⟩

/-! ## A stream host with a command (R192, R197) -/

/-- A host that presents goes on to await its response when the command is accepted, and else stays as it is. -/
theorem encodeMove_of_presenting {h : EncodeHost} (hp : h.phase = .presenting) (rst accepted : Bool)
    (taken : Option ResponseWord) :
    encodeMove rst accepted taken h = if accepted then { h with phase := .awaiting } else h := by
  simp only [encodeMove, hp]

theorem decodeMove_of_presenting {h : DecodeHost} (hp : h.phase = .presenting) (rst accepted : Bool)
    (taken : Option ResponseWord) :
    decodeMove rst accepted taken h = if accepted then { h with phase := .awaiting } else h := by
  simp only [decodeMove, hp]

/-- A host with a command that sees `rst` presents it, again if it was accepted before (log entry 15). -/
theorem encodeMove_of_rst {h : EncodeHost} (hp : h.phase = .awaiting ∨ h.phase = .presenting)
    (taken : Option ResponseWord) : encodeMove true false taken h = { h with phase := .presenting } := by
  obtain hp | hp := hp
  · simp only [encodeMove, hp, if_true]
  · rw [encodeMove_of_presenting hp, ← hp]
    rfl

theorem decodeMove_of_rst {h : DecodeHost} (hp : h.phase = .awaiting ∨ h.phase = .presenting)
    (taken : Option ResponseWord) : decodeMove true false taken h = { h with phase := .presenting } := by
  obtain hp | hp := hp
  · simp only [decodeMove, hp, if_true]
  · rw [decodeMove_of_presenting hp, ← hp]
    rfl

/-- Settles O3: at such an edge nothing is accepted, and the host moves in its phase alone. -/
theorem rstKeepsTheHostsCarry : Obligations.RstKeepsTheHostsCarry := by
  intro s t hr hstep
  have hd := driver_of_step hstep
  rw [hr, accepts_of_rst hr] at hd
  refine ⟨fun h hh hp => ?_, fun h hh hp => ?_⟩
  · rw [hd, hh, driverMove, encodeMove_of_rst hp]
  · rw [hd, hh, driverMove, decodeMove_of_rst hp]

/-- Settles O51: a host whose command is not accepted does not move. -/
theorem streamHostHoldsItsCommand : Obligations.StreamHostHoldsItsCommand := by
  intro s t hstep ha
  have hd := driver_of_step hstep
  rw [ha] at hd
  refine ⟨fun h hh hp => ?_, fun h hh hp => ?_⟩
  · rw [hd, hh, driverMove, encodeMove_of_presenting hp]
    rfl
  · rw [hd, hh, driverMove, decodeMove_of_presenting hp]
    rfl

/-! ## An accepted command completes (R202) -/

/-- Settles O49, by the run of a command in flight. -/
theorem acceptedCommandCompletes : Obligations.AcceptedCommandCompletes := fun _ hm hb _ hr =>
  let ⟨n, t, hrun, ht⟩ := run_busy_responds hm hb hr
  ⟨n, t, hrun, ht.answered⟩

/-! ## The host's operand duties (R198) -/

/-- The statuses of a command that meets its duties, and of one that does not (60_exceptions.md R170, R172 to R174). -/
def statusesByDuty (met : Bool) : List (BitVec 4) := if met then [0#4, 1#4] else [2#4, 3#4, 4#4]

theorem met_iff_of_mem_statusesByDuty {met : Bool} {c : BitVec 4} (h : c ∈ statusesByDuty met) :
    met = true ↔ c = 0#4 ∨ c = 1#4 := by
  cases met with
  | true => simpa [statusesByDuty] using h
  | false =>
    simp only [statusesByDuty, Bool.false_eq_true, if_false, List.mem_cons, List.not_mem_nil, or_false] at h
    obtain rfl | rfl | rfl := h <;> decide

theorem StatusIn.mono {codes codes' : List (BitVec 4)} {o : Out} (h : StatusIn codes o) (hsub : codes ⊆ codes') :
    StatusIn codes' o := fun w hw => hsub (h w hw)

theorem isDigitLane_iff (x : Byte) : isDigitLane x = true ↔ x.toNat ≤ 84 := by
  simp only [isDigitLane, Config.base, decide_eq_true_eq]
  omega

/-- The duty of A2C is its index check (40_alphabet_lookup.md R90). -/
theorem wellFormed_a2c (len : BitVec 4) (junk : BitVec 32) (idx : Byte) :
    (Instr.a2c len junk idx).wellFormed = true ↔ ¬84 < idx.toNat := by
  rw [Instr.wellFormed, isDigitLane_iff, Nat.not_lt]

/-- The duty of DECW is its lane check (42_decoder.md R123). -/
theorem wellFormed_decw (len : BitVec 4) (x : Five Byte) :
    (Instr.decw len x).wellFormed = true ↔ firstAboveDigit 0 (laneList x) = none := by
  have hlanes : (Instr.decw len x).wellFormed = true ↔ ∀ y ∈ laneList x, y.toNat ≤ 84 := by
    simp [Instr.wellFormed, isDigitLane_iff, laneList, and_assoc]
  rw [hlanes]
  exact ⟨firstAboveDigit_none _ 0, le_of_firstAboveDigit_none _ 0⟩

/-- The duty of ENCB is its length check (41_encoder.md R106). -/
theorem wellFormed_encb (len : BitVec 4) (junk b0 b1 b2 b3 : Byte) :
    (Instr.encb len junk b0 b1 b2 b3).wellFormed = true ↔ ¬(len.toNat = 0 ∨ 5 ≤ len.toNat) := by
  simp only [Instr.wellFormed, Config.nbyte, Bool.and_eq_true, decide_eq_true_eq]
  omega

/-- The duty of DECB is its length check (42_decoder.md R124): an invalid character breaks none. -/
theorem wellFormed_decb (len : BitVec 4) (c : Five Byte) :
    (Instr.decb len c).wellFormed = true ↔ ¬(len.toNat ≤ 1 ∨ 6 ≤ len.toNat) := by
  simp only [Instr.wellFormed, Config.ndig, Bool.and_eq_true, decide_eq_true_eq]
  omega

theorem execA2c_statusByDuty (len : BitVec 4) (junk : BitVec 32) (idx : Byte) (s : State) :
    StatusIn (statusesByDuty (Instr.a2c len junk idx).wellFormed) (execA2c len junk idx s) := by
  unfold execA2c
  split
  · next h => simp [statusesByDuty, wellFormed_a2c, h, statusCode]
  · next h => split <;> simp [statusesByDuty, wellFormed_a2c, h]

theorem execDecw_statusByDuty (len : BitVec 4) (x : Five Byte) (s : State) :
    StatusIn (statusesByDuty (Instr.decw len x).wellFormed) (execDecw len x s) := by
  unfold execDecw
  split
  · next h => simp [statusesByDuty, wellFormed_decw, h, statusCode]
  · next h => simp [statusesByDuty, wellFormed_decw, h]

theorem execEncb_statusByDuty (len : BitVec 4) (junk b0 b1 b2 b3 : Byte) (s : State) :
    StatusIn (statusesByDuty (Instr.encb len junk b0 b1 b2 b3).wellFormed) (execEncb len junk b0 b1 b2 b3 s) := by
  unfold execEncb
  split
  · next h => simp [statusesByDuty, wellFormed_encb, h, statusCode]
  · next h =>
    dsimp only
    split <;> simp [statusesByDuty, wellFormed_encb, h]

theorem execDecb_statusByDuty (len : BitVec 4) (c : Five Byte) (s : State) :
    StatusIn (statusesByDuty (Instr.decb len c).wellFormed) (execDecb len c s) := by
  unfold execDecb
  split
  · next h => simp [statusesByDuty, wellFormed_decb, h, statusCode]
  · next h => split <;> simp [statusesByDuty, wellFormed_decb, h, statusCode]

/-- Settles O43, command by command: the checks of A2C, DECW, ENCB and DECB are their duties, C2A and ENCW have none, and
no reserved word meets one. -/
theorem operandDutiesDecideTheStatus : Obligations.OperandDutiesDecideTheStatus := by
  intro i s t he
  refine met_iff_of_mem_statusesByDuty (StatusIn.rspStatus_mem he ?_)
  cases i with
  | a2c len junk idx => exact execA2c_statusByDuty len junk idx s
  | c2a len junk chr => exact execC2a_statusIn len junk chr s
  | encw len junk val => exact (execEncw_statusIn len junk val s).mono (by simp [statusesByDuty, Instr.wellFormed])
  | decw len x => exact execDecw_statusByDuty len x s
  | encb len junk b0 b1 b2 b3 => exact execEncb_statusByDuty len junk b0 b1 b2 b3 s
  | decb len c => exact execDecb_statusByDuty len c s
  | illegal0 | illegal7 | illegal8 | illegal9 | illegalA | illegalB | illegalC | illegalD | illegalE | illegalF =>
    exact (raiseIllegal_statusIn s).mono (by simp [statusesByDuty, Instr.wellFormed])

/-! ## A block that is not ready (R195) -/

/-- The state under another host. -/
def State.underHost (s : State) (d : Driver) : State := { s with driver := d }

/-- The outcome under another host. -/
def outUnderHost (d : Driver) : Out → Out
  | .next t => .next (t.underHost d)
  | .fault r => .fault r
  | .refused r => .refused r

section
variable (s : State) (d : Driver)

@[simp] theorem underHost_mem : (s.underHost d).mem = s.mem := rfl
@[simp] theorem underHost_rst : (s.underHost d).rst = s.rst := rfl
@[simp] theorem underHost_busy : (s.underHost d).busy = s.busy := rfl
@[simp] theorem underHost_wait : (s.underHost d).wait = s.wait := rfl
@[simp] theorem underHost_latched : (s.underHost d).latched = s.latched := rfl
@[simp] theorem underHost_cmdReady : (s.underHost d).cmdReady = s.cmdReady := rfl
@[simp] theorem underHost_driver : (s.underHost d).driver = d := rfl

/-- No command looks at the host. -/
theorem exec_underHost (i : Instr) : exec i (s.underHost d) = outUnderHost d (exec i s) := by
  cases i with
  | a2c len junk idx =>
    simp only [exec, execA2c, underHost_mem]
    split
    · rfl
    · split <;> rfl
  | c2a len junk chr =>
    rw [exec, exec, execC2a, execC2a, underHost_mem]
    split <;> rfl
  | encw len junk val => rfl
  | decw len x =>
    simp only [exec, execDecw]
    split <;> rfl
  | encb len junk b0 b1 b2 b3 =>
    simp only [exec, execEncb, encDigits_eq]
    split
    · rfl
    · simp only [underHost_mem]
      split <;> rfl
  | decb len c =>
    simp only [exec, execDecb, underHost_mem]
    split
    · rfl
    · split <;> rfl
  | illegal0 | illegal7 | illegal8 | illegal9 | illegalA | illegalB | illegalC | illegalD | illegalE | illegalF => rfl

theorem goOn_underHost : (s.underHost d).goOn = outUnderHost d s.goOn := by
  simp only [State.goOn, State.runLatched, underHost_wait, underHost_latched, exec_underHost]
  split <;> rfl

end

/-- The event of a block that is not ready depends on its host by `rsp_ready` alone. -/
theorem blockEdge_underHost {s : State} (hn : s.cmdReady = false) {d : Driver}
    (hready : (driverPins d).rspReady = (driverPins s.driver).rspReady) :
    (s.underHost d).blockEdge = outUnderHost d s.blockEdge := by
  have ha : s.accepts = false := by simp [State.accepts, hn]
  have ha' : (s.underHost d).accepts = false := by simp [State.accepts, hn]
  have ht : (s.underHost d).takes = s.takes := by
    simp only [State.takes, underHost_driver, hready]
    rfl
  simp only [State.blockEdge, underHost_rst, underHost_busy, goOn_underHost, ha, ha', ht, Bool.false_eq_true, if_false]
  split_ifs <;> rfl

/-- At a block that is not ready two outside hosts that agree in `rsp_ready` and from the next edge on are one. -/
theorem step_manual_of_not_cmdReady {s : State} (hn : s.cmdReady = false) {p q : Drive}
    (hready : p.rspReady = q.rspReady) (rest : List Drive) :
    step (s.underHost (.manual (p :: rest))) = step (s.underHost (.manual (q :: rest))) := by
  obtain ⟨b, hb, -⟩ := blockEdge_event (s.underHost (.manual (q :: rest)))
  have hb' : (s.underHost (.manual (p :: rest))).blockEdge = .next (b.underHost (.manual (p :: rest))) :=
    calc
      _ = outUnderHost (.manual (p :: rest)) (s.underHost (.manual (q :: rest))).blockEdge :=
        blockEdge_underHost (s := s.underHost (.manual (q :: rest))) hn hready
      _ = _ := by rw [hb, outUnderHost]
  rw [step_of_blockEdge hb, step_of_blockEdge hb']
  rfl

/-- Settles O48: the two hosts differ in the presented word alone. -/
theorem unreadyBlockIgnoresCommands : Obligations.UnreadyBlockIgnoresCommands := fun _ w ready rest hn =>
  step_manual_of_not_cmdReady (p := ⟨true, w, ready⟩) (q := ⟨false, 0#48, ready⟩) hn rfl rest

end Sys2Proof.Machine
end
